-- ==== Sys2Proof/Word.lean ====
section
/-! DEFINITION. The value types of the engine: bytes, words, dwords, the hash state and the buffer
(`00_scope.md` section 5.1, rules R8, R51). -/

namespace Sys2Proof

/-- A byte is 8 bits (R51). -/
abbrev Byte := BitVec 8

/-- A word is 32 bits, unsigned (R51). -/
abbrev Word := BitVec 32

/-- A dword is 64 bits, unsigned (`00_scope.md` section 5.1). -/
abbrev Dword := BitVec 64

/-- Eight words, `H[0]` first (R21). -/
abbrev HashState := Vector Word 8

/-- The 64 bytes of the carry buffer, in message order (R22, R55). -/
abbrev Buffer := Vector Byte 64

end Sys2Proof
end

