-- ==== Sys2Proof/Machine/Operands.lean ====
section
/-! DEFINITION. How bytes become words and numbers and how they become bytes again: the four big-endian
conversions of the engine (R52, R53, R54, R78). Every operand and every output passes through these. -/

namespace Sys2Proof.Machine

/-- `BE32(b0,b1,b2,b3)`: the first byte is the most significant (R52). -/
def be32 (b0 b1 b2 b3 : Byte) : Word := b0 ++ b1 ++ b2 ++ b3

/-- `BYTES32(w)`: `w[31:24], w[23:16], w[15:8], w[7:0]` (R53). -/
def bytes32 (w : Word) : List Byte :=
  [w.extractLsb' 24 8, w.extractLsb' 16 8, w.extractLsb' 8 8, w.extractLsb' 0 8]

/-- `BYTES64(d)`: `d[63:56], …, d[7:0]` (R54). -/
def bytes64 (d : Dword) : List Byte :=
  [d.extractLsb' 56 8, d.extractLsb' 48 8, d.extractLsb' 40 8, d.extractLsb' 32 8,
   d.extractLsb' 24 8, d.extractLsb' 16 8, d.extractLsb' 8 8, d.extractLsb' 0 8]

/-- A byte sequence as an unsigned number, most significant byte first: the value of `LEN` (R78). -/
def beNat (bs : List Byte) : Nat := bs.foldl (fun acc b => acc * 256 + b.toNat) 0

/-- The 32-byte serialization `BYTES32(H[0]) ‖ … ‖ BYTES32(H[7])` of a hash state (R53). -/
def serialize (h : HashState) : List Byte := h.toList.flatMap bytes32

/-- `0^k`, `k` bytes of value zero (`00_scope.md` section 5.1). -/
def zeros (k : Nat) : List Byte := List.replicate k 0

end Sys2Proof.Machine
end

