-- ==== Sys2Proof/Syntax.lean ====
section
/-! DEFINITION. The commands of the engine as abstract syntax (R70, R87). -/

namespace Sys2Proof

/-- The digest variant, the operand of `INIT` (R79, R87). -/
inductive Variant where
  | v256
  | v224
  deriving DecidableEq, Repr, Inhabited

/-- The four commands, one constructor per row of the opcode table (R70). An illegal frame is no command:
it is an outcome of the decoder (`Decoded.illegal`, R80). -/
inductive Instr where
  /-- `INIT(v)`, R150. -/
  | init (v : Variant)
  /-- `UPDATE(data)`, R160. -/
  | update (data : List Byte)
  /-- `FINALIZE()`, R170. -/
  | finalize
  /-- `DIGEST(msg)`, R190. -/
  | digest (msg : List Byte)
  deriving DecidableEq, Repr, Inhabited

end Sys2Proof
end

