-- ==== Sys2Proof/Config.lean ====
section
/-! DEFINITION. What one instance of the engine fixes, and the free values.

Every constant here is opaque: it has no body, so no proof can depend on what it is. -/

namespace Sys2Proof

/-- `digestLength`, which is 28 or 32 and nothing else (R24, `90_conflicts.md` C3). -/
inductive DigestLength where
  /-- 32 bytes, the 256-bit variant. -/
  | len32
  /-- 28 bytes, the 224-bit variant. -/
  | len28
  deriving DecidableEq, Repr, Inhabited

/-- The number of bytes `dlen` stands for. -/
def DigestLength.toNat : DigestLength → Nat
  | .len32 => 32
  | .len28 => 28

/-- The open parameter `IV224`: absent, or eight words (R152, D9). DESIGN CHOICE, safe (log 4): no value is
chosen, so whatever is proved holds for an engine with the parameter absent and for every value of it. -/
opaque Config.iv224 : Option HashState

/-- What `H` holds after the `k`-th RESET the machine took: unspecified (R39, U5). Free value, safe (log 3). -/
opaque Config.freeHash : Nat → HashState

/-- What `buffer` holds after the `k`-th RESET the machine took: unspecified (R39, U5). Free value, safe (log 3). -/
opaque Config.freeBuffer : Nat → Buffer

/-- What `total` holds after the `k`-th RESET the machine took: unspecified (R39, U5). Free value, safe (log 3). -/
opaque Config.freeTotal : Nat → Dword

/-- What `dlen` holds after the `k`-th RESET the machine took: unspecified (R39, U5). Free value, safe (log 3). -/
opaque Config.freeDlen : Nat → DigestLength

end Sys2Proof
end

