-- ==== Sys2Proof/WellFormed.lean ====
section
/-! DEFINITION. Which commands have a frame: the checks on operands. -/

namespace Sys2Proof

/-- The payload length fits the 64-bit `LEN` field (R78, R87: "any length from 0 up to 2^64 − 1"). -/
def payloadFits (data : List Byte) : Bool := decide (data.length < 2 ^ 64)

/-- The variant has an initial hash value: V256 always, V224 only if `IV224` is present (R74, R152). -/
def variantPresent : Variant → Bool
  | .v256 => true
  | .v224 => Config.iv224.isSome

/-- A command that some frame encodes. -/
def Instr.wf : Instr → Bool
  | .init v => variantPresent v
  | .update data => payloadFits data
  | .finalize => true
  | .digest msg => payloadFits msg

end Sys2Proof
end

