-- ==== Sys2Proof/Decode.lean ====
section
/-! DEFINITION. The frame decoder (R83), total on every byte sequence, and the encoder of the commands
(R72 to R79). -/

namespace Sys2Proof

open Machine (beNat bytes64)

/-- Why an opcode byte is illegal (R80). -/
inductive IllegalReason where
  /-- `RSV ≠ 0`. -/
  | reservedBits
  /-- `V = 1` with an `OP` other than `INIT`. -/
  | variantOnNonInit
  /-- 0x04 while the parameter `IV224` is absent. -/
  | iv224Absent
  deriving DecidableEq, Repr, Inhabited

/-- What stands at the head of `CMD_IN`, with the bytes after it. -/
inductive Decoded where
  /-- A whole command frame. -/
  | command (i : Instr) (rest : List Byte)
  /-- An illegal opcode byte, a frame of its own of one byte (R80). -/
  | illegal (why : IllegalReason) (rest : List Byte)
  /-- No whole frame yet: the engine waits (R81). -/
  | incomplete
  deriving DecidableEq, Repr, Inhabited

/-- Opcode byte field `RSV`, bits 7:3 (R73). -/
def opcodeRsv (b : Byte) : BitVec 5 := b.extractLsb' 3 5

/-- Opcode byte field `V`, bit 2 (R73). -/
def opcodeV (b : Byte) : BitVec 1 := b.extractLsb' 2 1

/-- Opcode byte field `OP`, bits 1:0 (R73). -/
def opcodeOp (b : Byte) : BitVec 2 := b.extractLsb' 0 2

/-- The rest of a format L frame: eight `LEN` bytes, then `LEN` payload bytes (R72, R78, R83). -/
def decodePayload (mk : List Byte → Instr) (stream : List Byte) : Decoded :=
  if stream.length < 8 then .incomplete
  else if (stream.drop 8).length < beNat (stream.take 8) then .incomplete
  else .command (mk ((stream.drop 8).take (beNat (stream.take 8))))
    ((stream.drop 8).drop (beNat (stream.take 8)))

/-- `DecodeFrame(stream)` (R83), by the fields of the opcode byte (R73 to R80). -/
def decodeFrame : List Byte → Decoded
  | [] => .incomplete
  | b :: rest =>
    if opcodeRsv b ≠ 0 then .illegal .reservedBits rest
    else if opcodeV b = 1 ∧ opcodeOp b ≠ 0b00 then .illegal .variantOnNonInit rest
    else if opcodeOp b = 0b00 then
      if opcodeV b = 0 then .command (.init .v256) rest
      else if variantPresent .v224 then .command (.init .v224) rest
      else .illegal .iv224Absent rest
    else if opcodeOp b = 0b01 then decodePayload .update rest
    else if opcodeOp b = 0b10 then .command .finalize rest
    else decodePayload .digest rest

/-- The format L frame of an opcode byte and a payload (R72). -/
def encodePayload (opcode : Byte) (data : List Byte) : List Byte :=
  opcode :: (bytes64 (BitVec.ofNat 64 data.length) ++ data)

/-- The frame of a command (R74 to R77). Meaningful for well-formed commands. -/
def encode : Instr → List Byte
  | .init .v256 => [0x00]
  | .init .v224 => [0x04]
  | .update data => encodePayload 0x01 data
  | .finalize => [0x02]
  | .digest msg => encodePayload 0x03 msg

/-- The first `n` bytes of an opcode-table word: bits 7:0 first (the table's bit numbering). -/
def wordBytes : Nat → Nat → List Byte
  | 0, _ => []
  | n + 1, w => BitVec.ofNat 8 w :: wordBytes n (w / 256)

/-- A byte sequence followed by as many zero bytes as make it `n` bytes long. -/
def padTo (n : Nat) (bs : List Byte) : List Byte := bs ++ List.replicate (n - bs.length) 0

/-- The frame an opcode-table word of `nbits` bits stands for, its unlisted bits zero: the bytes given, and for
a format L opcode as many zero bytes as its `LEN` field asks for. -/
def tableFrame (nbits w : Nat) : List Byte :=
  let bs := wordBytes (max 1 ((nbits + 7) / 8)) w
  if bs.head? = some 0x01 ∨ bs.head? = some 0x03 then
    let bs9 := padTo 9 bs
    padTo (9 + beNat ((bs9.drop 1).take 8)) bs9
  else bs

/-- The instruction the decoder reads from an opcode-table word. -/
def decodeTableWord (nbits w : Nat) : Option Instr :=
  match decodeFrame (tableFrame nbits w) with
  | .command i _ => some i
  | .illegal _ _ => none
  | .incomplete => none

end Sys2Proof
end

