-- ==== Sys2Proof/Machine/Primitives.lean ====
section
/-! DEFINITION. The bit-operation primitives (R100 to R109): pure functions over 32-bit words. `+32`, `&`, `^` and `~`
are the operations of `BitVec 32` (R100, R101). -/

namespace Sys2Proof.Machine

/-- `rotr(x, n)`, rotate right, for `0 < n < 32` (R102). -/
def rotr (x : Word) (n : Nat) : Word := (x >>> n) ||| (x <<< (32 - n))

/-- `x >> n`, the logical shift right (R103). -/
def shr (x : Word) (n : Nat) : Word := x >>> n

/-- `Ch(x,y,z)` (R104). -/
def ch (x y z : Word) : Word := (x &&& y) ^^^ (~~~x &&& z)

/-- `Maj(x,y,z)` (R105). -/
def maj (x y z : Word) : Word := (x &&& y) ^^^ (x &&& z) ^^^ (y &&& z)

/-- `Σ0(x)` (R106). -/
def bigSigma0 (x : Word) : Word := rotr x 2 ^^^ rotr x 13 ^^^ rotr x 22

/-- `Σ1(x)` (R107). -/
def bigSigma1 (x : Word) : Word := rotr x 6 ^^^ rotr x 11 ^^^ rotr x 25

/-- `σ0(x)` (R108): the third term is a shift. -/
def smallSigma0 (x : Word) : Word := rotr x 7 ^^^ rotr x 18 ^^^ shr x 3

/-- `σ1(x)` (R109): the third term is a shift. -/
def smallSigma1 (x : Word) : Word := rotr x 17 ^^^ rotr x 19 ^^^ shr x 10

end Sys2Proof.Machine
end

