-- ==== Sys2Proof/Machine/Compress.lean ====
section
/-! DEFINITION. The compression function (R120 to R130), in the full-array form with the source's round (R129). A block is
a sequence of 64 bytes; a byte a shorter sequence lacks reads as zero, which no command ever meets (log 15). -/

namespace Sys2Proof.Machine

/-- `W[0..15]`: the block as sixteen big-endian words (R121). -/
def firstWords (blk : List Byte) : List Word :=
  (List.range 16).map fun j =>
    be32 (blk.getD (4 * j) 0) (blk.getD (4 * j + 1) 0) (blk.getD (4 * j + 2) 0) (blk.getD (4 * j + 3) 0)

/-- The word `W[t]` that follows `W[0..t−1]`, for `t ≥ 16` (R122). -/
def nextScheduleWord (ws : List Word) : Word :=
  smallSigma1 (ws.getD (ws.length - 2) 0) + ws.getD (ws.length - 7) 0 +
    smallSigma0 (ws.getD (ws.length - 15) 0) + ws.getD (ws.length - 16) 0

/-- A schedule extended by `n` words (R122). -/
def extendSchedule : Nat → List Word → List Word
  | 0, ws => ws
  | n + 1, ws => extendSchedule n (ws ++ [nextScheduleWord ws])

/-- The message schedule `W[0..63]` of a block (R121, R122). -/
def schedule (blk : List Byte) : List Word := extendSchedule 48 (firstWords blk)

/-- The working variables (R30). -/
structure Working where
  a : Word
  b : Word
  c : Word
  d : Word
  e : Word
  f : Word
  g : Word
  h : Word
  deriving DecidableEq, Repr

/-- The load before round 0 (R124). -/
def loadWorking (S : HashState) : Working :=
  ⟨S[0], S[1], S[2], S[3], S[4], S[5], S[6], S[7]⟩

/-- `T1` of a round with constant `kt` and schedule word `wt` (R125). -/
def roundT1 (w : Working) (kt wt : Word) : Word :=
  w.h + bigSigma1 w.e + ch w.e w.f w.g + kt + wt

/-- One round in the source's formulation: the two updates, then the rotation of the roles (R125). -/
def sourceRound (w : Working) (kt wt : Word) : Working :=
  let d' := w.d + roundT1 w kt wt
  let h' := roundT1 w kt wt + bigSigma0 w.a + maj w.a w.b w.c
  ⟨h', w.a, w.b, w.c, d', w.e, w.f, w.g⟩

/-- Rounds run in order over pairs `(K[t], W[t])` (R125). -/
def rounds (w : Working) (kws : List (Word × Word)) : Working :=
  kws.foldl (fun w kw => sourceRound w kw.1 kw.2) w

/-- The state accumulation (R128). -/
def feedForward (S : HashState) (w : Working) : HashState :=
  #v[S[0] + w.a, S[1] + w.b, S[2] + w.c, S[3] + w.d, S[4] + w.e, S[5] + w.f, S[6] + w.g, S[7] + w.h]

/-- `Compress(S, blk)` (R120, R129). -/
def compress (S : HashState) (blk : List Byte) : HashState :=
  feedForward S (rounds (loadWorking S) (K.zip (schedule blk)))

end Sys2Proof.Machine
end

