-- ==== Sys2Proof/Machine/State.lean ====
section
/-! DEFINITION. The machine's state, as plain data: the context (R20 to R25), the two byte streams and the reset
input (R71, R230), and its value right after reset (R39). -/

namespace Sys2Proof.Machine

/-- The lifecycle register `phase` (R25). -/
inductive Phase where
  /-- No `INIT` or `DIGEST` has completed since reset. -/
  | uninit
  /-- Initialized, the message is open. -/
  | active
  /-- Finalized and not reinitialized. -/
  | spent
  deriving DecidableEq, Repr, Inhabited

/-- The engine's whole architectural state (R20). -/
structure Context where
  /-- `H[0..7]`, the running hash value (R21). -/
  H : HashState
  /-- `buffer[0..63]`, the not-yet-compressed tail of the message (R22). -/
  buffer : Buffer
  /-- `total`, the bytes consumed so far (R23). -/
  total : Dword
  /-- `dlen`, the output length in bytes (R24). -/
  dlen : DigestLength
  /-- `phase`, the lifecycle position (R25). -/
  phase : Phase
  deriving DecidableEq, Repr

/-- One engine with its two streams and its reset input (R71, R40). -/
structure State where
  /-- The context. -/
  ctx : Context
  /-- `CMD_IN`: the bytes the engine has not consumed, next byte first. -/
  cmdIn : List Byte
  /-- `RSP_OUT`: the bytes the host has not taken, oldest first. -/
  rspOut : List Byte
  /-- `RESET`: asserted and not yet taken (R230). -/
  resetIn : Bool
  /-- The model's own field: how many times a RESET has drawn its free values (log 3). -/
  freeCount : Nat
  deriving DecidableEq, Repr

/-- Nothing stops the engine: every command in every context has exactly one outcome (R87), an error is an
answer (R206) and an incomplete frame is a wait (R81). So there is no constructor. -/
inductive Fault where
  deriving DecidableEq, Repr

/-- Why an instruction would have no meaning. -/
inductive Refusal where
  /-- Raised by an arm of `exec` whose instruction has no meaning yet; no arm does. Safe: the model stops. -/
  | notModelled (mnemonic : String)
  deriving DecidableEq, Repr

/-- The machine right after reset: `phase` is UNINIT and both streams are empty (R39, R230). DESIGN CHOICE, unsafe
(log 1): `H`, `buffer`, `total` and `dlen` are unspecified there (R39), and hold zeros and 32 here. -/
def State.reset : State where
  ctx :=
    { H := Vector.replicate 8 0
      buffer := Vector.replicate 64 0
      total := 0
      dlen := .len32
      phase := .uninit }
  cmdIn := []
  rspOut := []
  resetIn := false
  freeCount := 0

end Sys2Proof.Machine
end

