-- ==== Sys2Proof/Machine/Flags.lean ====
section
/-! DEFINITION. The engine has no flags and no condition codes (R35). The only status a host sees is the status
byte of each response (R82), and the only condition a command tests is `phase` (R217): both stand here. -/

namespace Sys2Proof.Machine

/-- The status of a response (R82, R87). -/
inductive Status where
  | ok
  | notInitialized
  | alreadyFinalized
  | illegalCommand
  deriving DecidableEq, Repr, Inhabited

/-- The status byte (R82). -/
def Status.code : Status → Byte
  | .ok => 0x00
  | .notInitialized => 0x01
  | .alreadyFinalized => 0x02
  | .illegalCommand => 0x03

/-- A response: a status and, after a successful `FINALIZE` or `DIGEST`, the digest (R87). -/
structure Response where
  status : Status
  digest : List Byte
  deriving DecidableEq, Repr, Inhabited

/-- The bytes of a response on `RSP_OUT`: the status byte, then the digest bytes (R82). -/
def Response.frame (r : Response) : List Byte := r.status.code :: r.digest

/-- The error `UPDATE` and `FINALIZE` raise in a phase, if any (R202, R203). -/
def phaseError : Phase → Option Status
  | .uninit => some .notInitialized
  | .active => none
  | .spent => some .alreadyFinalized

end Sys2Proof.Machine
end

