-- ==== Sys2Proof/Machine/Ops.lean ====
section
/-! DEFINITION. The named operations over the state that every command is written with: the buffer accesses (R66),
the counter (R110), raising an error (R206), completing a command (R71) and taking a reset (R230). -/

namespace Sys2Proof.Machine

/-- `BufRead(i, n)`: the bytes `buffer[i], …, buffer[i+n−1]` (R66). -/
def bufRead (b : Buffer) (i n : Nat) : List Byte := (b.toList.drop i).take n

/-- `BufWrite(i, n, v)` with `n = len(v)`: `buffer[i+k] <- v[k]` (R66). Every use has `i + n ≤ 64`. -/
def bufWrite (b : Buffer) (i : Nat) : List Byte → Buffer
  | [] => b
  | x :: xs => bufWrite (b.setIfInBounds i x) (i + 1) xs

/-- `total +64 n` (R110 (a), R161). -/
def addLength (total : Dword) (n : Nat) : Dword := total + BitVec.ofNat 64 n

/-- `total mod 64`, the fill level (R110 (b)). -/
def fillLevel (total : Dword) : Nat := total.toNat % 64

/-- `L = (total × 8) mod 2^64`, the message length in bits (R110 (c), R174, D11). -/
def bitLength (total : Dword) : Dword := total * 8

/-- Raising an error: the context stays as it is and the response is the status alone (R206 (b), (c)). The frame is
already consumed when a command is performed (R206 (a)), and the engine goes on to the next (R206 (d)). -/
def raiseError (e : Status) (c : Context) : Context × Response := (c, ⟨e, []⟩)

/-- The phase check that `UPDATE` and `FINALIZE` make before anything else (R160, R170, R208). -/
def whenActive (c : Context) (act : Context → Context × Response) : Context × Response :=
  match phaseError c.phase with
  | some e => raiseError e c
  | none => act c

/-- Completing a command: the new context, and exactly one response frame appended to `RSP_OUT` (R71, R82). -/
def State.complete (s : State) (r : Context × Response) : State :=
  { s with ctx := r.1, rspOut := s.rspOut ++ r.2.frame }

/-- The abstract command `Illegal` (R80, R204). -/
def performIllegal (c : Context) : Context × Response := raiseError .illegalCommand c

/-- Taking a RESET (R230): an incomplete frame and both streams are discarded, `phase` is UNINIT, and the other
fields of the context are unspecified (R39), so they take free values (log 3). DESIGN CHOICE (log 2): bytes the host
writes after asserting RESET and before this step are discarded with the rest of `CMD_IN`; R239 says nothing of them. -/
def takeReset (s : State) : State where
  ctx :=
    { H := Config.freeHash s.freeCount
      buffer := Config.freeBuffer s.freeCount
      total := Config.freeTotal s.freeCount
      dlen := Config.freeDlen s.freeCount
      phase := .uninit }
  cmdIn := []
  rspOut := []
  resetIn := false
  freeCount := s.freeCount + 1

end Sys2Proof.Machine
end

