-- ==== Sys2Proof/Machine/Finalize.lean ====
section
/-! DEFINITION. The command `FINALIZE` (R170 to R181). -/

namespace Sys2Proof.Machine

/-- The marker 0x80 written at position `index` (R172). -/
def markBuffer (c : Context) : Buffer := bufWrite c.buffer (fillLevel c.total) [0x80]

/-- Whether fewer than 8 bytes remain after the marker, so that a second block is needed (R173). -/
def needsSecondBlock (index : Nat) : Bool := decide (64 - (index + 1) < 8)

/-- The first of two final blocks: zero-filled to the block boundary (R173). -/
def firstFinalBuffer (c : Context) : Buffer :=
  let j := fillLevel c.total + 1
  bufWrite (markBuffer c) j (zeros (64 - j))

/-- The last block before its length field is written (R173). -/
def lastBlockBuffer (c : Context) : Buffer :=
  let j := fillLevel c.total + 1
  if needsSecondBlock (fillLevel c.total) then bufWrite (firstFinalBuffer c) 0 (zeros 56)
  else bufWrite (markBuffer c) j (zeros (56 - j))

/-- The hash state before the last compression (R173). -/
def lastBlockHash (c : Context) : HashState :=
  if needsSecondBlock (fillLevel c.total) then compress c.H (bufRead (firstFinalBuffer c) 0 64) else c.H

/-- The final block: the length field in its last eight bytes (R174). -/
def finalBuffer (c : Context) : Buffer :=
  bufWrite (lastBlockBuffer c) 56 (bytes64 (bitLength c.total))

/-- The hash value of the whole message (R175). -/
def finalHash (c : Context) : HashState := compress (lastBlockHash c) (bufRead (finalBuffer c) 0 64)

/-- `FINALIZE()` in phase ACTIVE (R170): the context is spent and the first `dlen` bytes of the serialized hash value
are emitted (R176, R177). `total` and `dlen` are not written (R180). -/
def finalizeActive (c : Context) : Context × Response :=
  ({ c with buffer := finalBuffer c, H := finalHash c, phase := .spent },
    ⟨.ok, (serialize (finalHash c)).take c.dlen.toNat⟩)

/-- `FINALIZE()` on the context: the phase check comes first (R170, R178). -/
def performFinalize (c : Context) : Context × Response := whenActive c finalizeActive

/-- The meaning of `FINALIZE`. -/
def execFinalize (s : State) : Host.Outcome State Fault Refusal :=
  .next (s.complete (performFinalize s.ctx))

end Sys2Proof.Machine
end

