-- ==== Sys2Proof/Machine/Init.lean ====
section
/-! DEFINITION. The command `INIT` (R150 to R155). -/

namespace Sys2Proof.Machine

/-- `INIT(v)` on the context (R150): `total`, `dlen`, `H` and `phase` are written, `buffer` is not (R153). If `v` has no
initial hash value there is no such command and its byte is an illegal frame (R80, log 5). -/
def performInit (v : Variant) (c : Context) : Context × Response :=
  match initialHash v with
  | some iv =>
    ({ c with total := 0, dlen := digestLengthOf v, H := iv, phase := .active }, ⟨.ok, []⟩)
  | none => performIllegal c

/-- The meaning of `INIT`. -/
def execInit (v : Variant) (s : State) : Host.Outcome State Fault Refusal :=
  .next (s.complete (performInit v s.ctx))

end Sys2Proof.Machine
end

