-- ==== Sys2Proof/Machine/Update.lean ====
section
/-! DEFINITION. The command `UPDATE` (R160 to R168). -/

namespace Sys2Proof.Machine

/-- `q` whole blocks taken from the head of `data`, each compressed before the next is read (R163). -/
def absorbBlocks : Nat → HashState → List Byte → HashState
  | 0, H, _ => H
  | q + 1, H, data => absorbBlocks q (compress H (data.take 64)) (data.drop 64)

/-- How many bytes step 1 copies: none into an empty buffer, else `min (64 − fill) n` (R162). -/
def topUpCount (fill n : Nat) : Nat := if fill = 0 then 0 else min (64 - fill) n

/-- The buffer after step 1 (R162). -/
def topUpBuffer (c : Context) (data : List Byte) : Buffer :=
  let fill := fillLevel c.total
  bufWrite c.buffer fill (data.take (topUpCount fill data.length))

/-- The hash state after step 1: one compression exactly when the buffer filled (R162). -/
def topUpHash (c : Context) (data : List Byte) : HashState :=
  let fill := fillLevel c.total
  if fill + topUpCount fill data.length = 64 then compress c.H (bufRead (topUpBuffer c data) 0 64) else c.H

/-- `UPDATE(data)` in phase ACTIVE: top-up, whole blocks straight from the input, remainder (R160). -/
def updateActive (data : List Byte) (c : Context) : Context × Response :=
  let fill := fillLevel c.total
  let rest := data.drop (topUpCount fill data.length)
  let q := rest.length / 64
  ({ c with
      total := addLength c.total data.length
      H := absorbBlocks q (topUpHash c data) rest
      buffer := bufWrite (topUpBuffer c data) 0 (rest.drop (64 * q)) },
    ⟨.ok, []⟩)

/-- `UPDATE(data)` on the context: the phase check comes first (R160, R166). -/
def performUpdate (data : List Byte) (c : Context) : Context × Response :=
  whenActive c (updateActive data)

/-- The meaning of `UPDATE`. -/
def execUpdate (data : List Byte) (s : State) : Host.Outcome State Fault Refusal :=
  .next (s.complete (performUpdate data s.ctx))

/-- `FeedByte(b)`, the byte-at-a-time form (R168). Not a command; the machine does not use it. -/
def feedByte (c : Context) (b : Byte) : Context :=
  let fill := fillLevel c.total
  let buf := bufWrite c.buffer fill [b]
  { c with
    total := addLength c.total 1
    buffer := buf
    H := if fill = 63 then compress c.H (bufRead buf 0 64) else c.H }

end Sys2Proof.Machine
end

