-- ==== Sys2Proof/Machine/Digest.lean ====
section
/-! DEFINITION. The command `DIGEST` (R190 to R193): the composition of the other three. -/

namespace Sys2Proof.Machine

/-- `DIGEST(msg)` on the context: `INIT(V256)` and `UPDATE(msg)` without their responses, then `FINALIZE()` with its
response (R190). -/
def performDigest (msg : List Byte) (c : Context) : Context × Response :=
  performFinalize (performUpdate msg (performInit .v256 c).1).1

/-- The meaning of `DIGEST`. -/
def execDigest (msg : List Byte) (s : State) : Host.Outcome State Fault Refusal :=
  .next (s.complete (performDigest msg s.ctx))

end Sys2Proof.Machine
end

