-- ==== Sys2Proof/Machine/Step.lean ====
section
/-! DEFINITION. One step of the engine (R71): take an asserted RESET; else decode the frame at the head of `CMD_IN`,
consume it and perform it; else wait. -/

namespace Sys2Proof.Machine

/-- One step. RESET goes first (R230, log 2). An illegal opcode byte is consumed and answered (R80, R204). Without a
whole frame nothing changes (R81, R216, log 6). -/
def step (s : State) : Host.Outcome State Fault Refusal :=
  if s.resetIn then .next (takeReset s)
  else
    match decodeFrame s.cmdIn with
    | .command i rest => exec i { s with cmdIn := rest }
    | .illegal _ rest => .next (State.complete { s with cmdIn := rest } (performIllegal s.ctx))
    | .incomplete => .next s

/-- The state with the frame of an opcode-table word put at the head of `CMD_IN`, where the step takes its next
frame, and no RESET asserted (log 12). -/
def State.withFetchWord (s : State) (nbits w : Nat) : State :=
  { s with cmdIn := tableFrame nbits w ++ s.cmdIn, resetIn := false }

end Sys2Proof.Machine
end

