-- ==== Sys2Proof/Machine/CompressForms.lean ====
section
/-! DEFINITION. The other forms the spec gives of the same computations: the rolling schedule (R123), the textbook round
(R126), the slot round (R131), the alternative expressions of `Ch` and `Maj` (R104, R105), the word form of the marker write
(R56). The machine does not use them; the statements say that they agree with what it uses. -/

namespace Sys2Proof.Machine

/-- `Ch` as `z ^ (x & (y ^ z))` (R104). -/
def chSelect (x y z : Word) : Word := z ^^^ (x &&& (y ^^^ z))

/-- `Ch` as `(x & y) | (~x & z)` (R104). -/
def chOr (x y z : Word) : Word := (x &&& y) ||| (~~~x &&& z)

/-- `Maj` as `(x & y) | (z & (x | y))` (R105). -/
def majOr (x y z : Word) : Word := (x &&& y) ||| (z &&& (x ||| y))

/-- `Maj` as `(x & y) ^ (z & (x ^ y))` (R105). -/
def majXor (x y z : Word) : Word := (x &&& y) ^^^ (z &&& (x ^^^ y))

/-- One round in the textbook formulation (R126). -/
def roundTextbook (w : Working) (kt wt : Word) : Working :=
  let T1 := w.h + bigSigma1 w.e + ch w.e w.f w.g + kt + wt
  let T2 := bigSigma0 w.a + maj w.a w.b w.c
  { h := w.g, g := w.f, f := w.e, e := w.d + T1, d := w.c, c := w.b, b := w.a, a := T1 + T2 }

/-- The 16-word window at its start: `Wc[j] <- W[j]` (R123). -/
def rollingStart (blk : List Byte) : Vector Word 16 := Vector.ofFn fun j => (firstWords blk).getD j 0

/-- Slot `i mod 16` of the rolling window. -/
def rollingAt (wc : Vector Word 16) (i : Nat) : Word := wc[i % 16]'(Nat.mod_lt i (by decide))

/-- The update of the window at the start of round `t ≥ 16` (R123). -/
def rollingStep (wc : Vector Word 16) (t : Nat) : Vector Word 16 :=
  wc.set (t % 16)
    (smallSigma1 (rollingAt wc (t - 2)) + rollingAt wc (t - 7) + smallSigma0 (rollingAt wc (t - 15)) + rollingAt wc t)
    (Nat.mod_lt t (by decide))

/-- The window as round `t` sees it: unchanged for `t < 16`, updated for `t ≥ 16` (R123). -/
def rollingWindow (blk : List Byte) : Nat → Vector Word 16
  | 0 => rollingStart blk
  | t + 1 => if t + 1 < 16 then rollingWindow blk t else rollingStep (rollingWindow blk t) (t + 1)

/-- The schedule word round `t` uses in the rolling form, `Wc[t mod 16]` (R123). -/
def rollingWord (blk : List Byte) (t : Nat) : Word := rollingAt (rollingWindow blk t) t

/-- The slot that plays role `r` in round `t`: `(r − t) mod 8` (R131). -/
def slotOf (r t : Nat) : Nat := (r + (8 - t % 8)) % 8

theorem slotOf_lt (r t : Nat) : slotOf r t < 8 := Nat.mod_lt _ (by decide)

/-- The slot of role `r` in round `t`, read. -/
def slotAt (s : Vector Word 8) (r t : Nat) : Word := s[slotOf r t]'(slotOf_lt r t)

/-- One round in the slot formulation (R131): two slots change and nothing moves. -/
def slotRound (s : Vector Word 8) (t : Nat) (kt wt : Word) : Vector Word 8 :=
  let T1 := slotAt s 7 t + bigSigma1 (slotAt s 4 t) + ch (slotAt s 4 t) (slotAt s 5 t) (slotAt s 6 t) + kt + wt
  let newH := T1 + bigSigma0 (slotAt s 0 t) + maj (slotAt s 0 t) (slotAt s 1 t) (slotAt s 2 t)
  (s.set (slotOf 3 t) (slotAt s 3 t + T1) (slotOf_lt 3 t)).set (slotOf 7 t) newH (slotOf_lt 7 t)

/-- Slot rounds `t, t+1, …` over pairs `(K[t], W[t])` (R131). -/
def slotRounds (s : Vector Word 8) : Nat → List (Word × Word) → Vector Word 8
  | _, [] => s
  | t, kw :: kws => slotRounds (slotRound s t kw.1 kw.2) (t + 1) kws

/-- `Compress` with the rolling schedule and the slot rounds, as the reference program does it (R123, R131, R128). -/
def compressRollingSlots (S : HashState) (blk : List Byte) : HashState :=
  let s := slotRounds S 0 (K.zip ((List.range 64).map (rollingWord blk)))
  Vector.ofFn fun i => S[i] + s[i]

/-- The buffer's word `Bw[j]`, packed big-endian (R56). -/
def bufferWord (b : Buffer) (j : Nat) (h : j < 16) : Word :=
  be32 b[4 * j] b[4 * j + 1] b[4 * j + 2] b[4 * j + 3]

/-- The marker write on one buffer word: keep the bytes before `index`, set the marker bit, clear the rest (R56). -/
def markerWord (w : Word) (index : Nat) : Word :=
  (w &&& ~~~(0xFFFFFFFF#32 >>> (8 * (index % 4)))) ||| (0x80000000#32 >>> (8 * (index % 4)))

end Sys2Proof.Machine
end

