-- ==== Sys2Proof/Machine/Abstract.lean ====
section
/-! DEFINITION. The abstract command level of the spec (R87): a function from a context and a command to a context and a
response, without the byte streams. The byte-level step is stated to agree with it. -/

namespace Sys2Proof.Machine

/-- The abstract command type: one of the four commands, or `Illegal` (R87). -/
inductive Command where
  | instr (i : Instr)
  | illegal
  deriving DecidableEq, Repr, Inhabited

/-- A command performed on a context. -/
def perform : Instr → Context → Context × Response
  | .init v, c => performInit v c
  | .update data, c => performUpdate data c
  | .finalize, c => performFinalize c
  | .digest msg, c => performDigest msg c

/-- `step : Context × Command → Context × Response` (R87). -/
def performCommand : Command → Context → Context × Response
  | .instr i, c => perform i c
  | .illegal, c => performIllegal c

/-- A list of commands performed in order: the last context and the responses in command order (R62, R71). -/
def performCommands : List Command → Context → Context × List Response
  | [], c => (c, [])
  | k :: ks, c =>
    ((performCommands ks (performCommand k c).1).1,
      (performCommand k c).2 :: (performCommands ks (performCommand k c).1).2)

/-- Whether a byte sequence is exactly the frame of an abstract command (R72, R80). -/
def isFrameOf (frame : List Byte) : Command → Prop
  | .instr i => decodeFrame frame = .command i []
  | .illegal => ∃ why, decodeFrame frame = .illegal why []

end Sys2Proof.Machine
end

