-- ==== Sys2Proof/Machine/HostPort.lean ====
section
/-! DEFINITION. What the host can do to the machine, between steps (R71, R230, R240). -/

namespace Sys2Proof.Machine

/-- The host writes bytes to `CMD_IN` (R71). DESIGN CHOICE (log 2): also while RESET is asserted, and then the step that
takes the RESET discards them. -/
def State.hostWrite (s : State) (bytes : List Byte) : State := { s with cmdIn := s.cmdIn ++ bytes }

/-- The host takes the `n` oldest bytes of `RSP_OUT` (R71). DESIGN CHOICE (log 19): where fewer stand there it gets those at once,
none from an empty `RSP_OUT`; R239 says nothing of how the host learns that a response is ready. Also while RESET is asserted. -/
def State.hostTake (s : State) (n : Nat) : List Byte × State :=
  (s.rspOut.take n, { s with rspOut := s.rspOut.drop n })

/-- The host asserts `RESET` (R230); the next step takes it. -/
def State.hostReset (s : State) : State := { s with resetIn := true }

end Sys2Proof.Machine
end

