-- ==== Sys2Proof/Safety.lean ====
section
/-! DEFINITION. The terms in which claims about the engine are made: the message a context represents (R26), the padded
message and its hash (R132, R179), what the host can tell apart (R36, R38), and where a run stands (R239). -/

namespace Sys2Proof.Machine

/-- The live bytes of the buffer, `buffer[0 .. fill−1]` (R26). -/
def liveBytes (c : Context) : List Byte := bufRead c.buffer 0 (fillLevel c.total)

/-- The first `q` 64-byte slices of a byte sequence (R26, R58). -/
def wholeBlocks : Nat → List Byte → List (List Byte)
  | 0, _ => []
  | q + 1, m => m.take 64 :: wholeBlocks q (m.drop 64)

/-- The whole blocks `m[0..63], m[64..127], …` of a byte sequence: `len(m) div 64` of them (R26). -/
def messageBlocks (m : List Byte) : List (List Byte) := wholeBlocks (m.length / 64) m

/-- The bytes after the last whole block: the last `len(m) mod 64` (R26). -/
def messageTail (m : List Byte) : List Byte := m.drop (64 * (m.length / 64))

/-- The chain of compressions `H_{k+1} = Compress(H_k, M_k)` (R132). -/
def chain (H : HashState) (blocks : List (List Byte)) : HashState := blocks.foldl compress H

/-- The context holds the open message `m` of variant `v` (R26): `total` counts it, its whole blocks are compressed
into `H` from the variant's initial hash value, and its tail is the live part of the buffer. -/
structure Represents (c : Context) (v : Variant) (m : List Byte) : Prop where
  phase : c.phase = .active
  dlen : c.dlen = digestLengthOf v
  total : c.total = BitVec.ofNat 64 m.length
  hash : ∃ iv, initialHash v = some iv ∧ c.H = chain iv (messageBlocks m)
  live : liveBytes c = messageTail m

/-- The invariant of the lifecycle (R26): in phase ACTIVE the context holds some message. -/
def Inv (s : State) : Prop := s.ctx.phase = .active → ∃ v m, Represents s.ctx v m

/-- `pad(m) = m ‖ 0x80 ‖ 0^k ‖ BYTES64(8n)`, `k = (55 − n) mod 64` (R179). -/
def pad (m : List Byte) : List Byte :=
  m ++ [0x80] ++ zeros (((55 : Int) - m.length) % 64).toNat ++ bytes64 (BitVec.ofNat 64 (8 * m.length))

/-- The hash value `H_N` of a whole message from an initial hash value (R132, R179). -/
def messageHash (iv : HashState) (m : List Byte) : HashState := chain iv (messageBlocks (pad m))

/-- The digest of a whole message: the first `dlen` bytes of the serialized hash value (R176, R179). -/
def digestOf (iv : HashState) (dlen : DigestLength) (m : List Byte) : List Byte :=
  (serialize (messageHash iv m)).take dlen.toNat

/-- Two contexts that no sequence of commands can tell apart: the same phase, and in phase ACTIVE the same `H`, `total`,
`dlen` and live bytes. Dead buffer bytes (R36), and everything but `phase` outside ACTIVE (R39, R180), may differ. -/
def Context.Agree (c₁ c₂ : Context) : Prop :=
  c₁.phase = c₂.phase ∧
    (c₁.phase = .active →
      c₁.H = c₂.H ∧ c₁.total = c₂.total ∧ c₁.dlen = c₂.dlen ∧ liveBytes c₁ = liveBytes c₂)

/-- Two machines the host cannot tell apart now or later: the same streams and reset input, contexts that agree. -/
def State.Agree (s₁ s₂ : State) : Prop :=
  s₁.ctx.Agree s₂.ctx ∧ s₁.cmdIn = s₂.cmdIn ∧ s₁.rspOut = s₂.rspOut ∧ s₁.resetIn = s₂.resetIn

/-- `k` steps of the machine (`Host.Core.run` on `Sys2Proof.core`, see `runSteps_eq_core_run`). -/
def runSteps : Nat → State → Host.Outcome State Fault Refusal
  | 0, s => .next s
  | k + 1, s =>
    match step s with
    | .next t => runSteps k t
    | .fault r => .fault r
    | .refused r => .refused r

/-- The engine waits: no RESET, and no whole frame at the head of `CMD_IN` (R81). -/
def State.waiting (s : State) : Prop := s.resetIn = false ∧ decodeFrame s.cmdIn = .incomplete

/-- The run is over: every byte written has been consumed (R239). -/
def State.runOver (s : State) : Prop := s.resetIn = false ∧ s.cmdIn = []

/-- Stuck inside a frame: waiting, with bytes in `CMD_IN` (R239, D22). -/
def State.stuck (s : State) : Prop := s.waiting ∧ s.cmdIn ≠ []

end Sys2Proof.Machine
end

