-- ==== Sys2Proof/Certificates/Slice0/Obligations.lean ====
section
/-! DEFINITION. The statements for the provers. Each docstring names the rules of spec/ the statement formalises or rests on. -/

open Sys2Proof Sys2Proof.Machine

/-! ## Encoding and decoding -/

/-- Frames written out from the encoding tables (R73 to R80; `95_test_vectors.md` section 7) decode to what they stand for, and
payload bytes are never decoded. -/
def Obligations.KnownFramesDecode : Prop :=
  decodeFrame [0x00] = .command (.init .v256) [] ∧
  decodeFrame [0x01, 0, 0, 0, 0, 0, 0, 0, 3, 0x61, 0x62, 0x63, 0x02] = .command (.update [0x61, 0x62, 0x63]) [0x02] ∧
  decodeFrame [0x01, 0, 0, 0, 0, 0, 0, 0, 2, 0x02, 0x03] = .command (.update [0x02, 0x03]) [] ∧
  decodeFrame [0x02] = .command .finalize [] ∧
  decodeFrame [0x03, 0, 0, 0, 0, 0, 0, 0, 0] = .command (.digest []) [] ∧
  decodeFrame [0x05] = .illegal .variantOnNonInit [] ∧
  decodeFrame [0x08] = .illegal .reservedBits [] ∧
  decodeFrame [0xff, 0x00] = .illegal .reservedBits [0x00] ∧
  decodeFrame [0x01, 0, 0, 0, 0, 0, 0, 0] = .incomplete ∧
  decodeFrame [0x01, 0, 0, 0, 0, 0, 0, 0, 2, 0x61] = .incomplete

/-- Decode and encode agree: the frame of a well-formed command, whatever follows it, decodes to that command with every
operand as it was, and leaves what follows (R72 to R79). -/
def Obligations.EncodedFrameDecodes : Prop :=
  ∀ (i : Instr) (rest : List Byte), i.wf = true → decodeFrame (encode i ++ rest) = .command i rest

/-- The other direction: a byte sequence that decodes to a command begins with that command's one frame, and the command is
well-formed (R72 to R80). -/
def Obligations.DecodedCommandHasOneFrame : Prop :=
  ∀ (s rest : List Byte) (i : Instr), decodeFrame s = .command i rest → i.wf = true ∧ s = encode i ++ rest

/-- The decoder as R83 gives it, opcode byte by opcode byte, with `LEN` the sum of R78. -/
def Obligations.DecoderFollowsOpcodeByte : Prop :=
  ∀ (b : Byte) (r : List Byte),
    let len := ∑ k ∈ Finset.range 8, (r.getD k 0).toNat * 2 ^ (8 * (7 - k))
    decodeFrame [] = .incomplete ∧
    (b = 0x00 → decodeFrame (b :: r) = .command (.init .v256) r) ∧
    (b = 0x02 → decodeFrame (b :: r) = .command .finalize r) ∧
    (b = 0x01 ∨ b = 0x03 → r.length < 8 ∨ r.length < 8 + len → decodeFrame (b :: r) = .incomplete) ∧
    (b = 0x01 → 8 + len ≤ r.length →
      decodeFrame (b :: r) = .command (.update ((r.drop 8).take len)) (r.drop (8 + len))) ∧
    (b = 0x03 → 8 + len ≤ r.length →
      decodeFrame (b :: r) = .command (.digest ((r.drop 8).take len)) (r.drop (8 + len))) ∧
    (b = 0x04 →
      match Config.iv224 with
      | some _ => decodeFrame (b :: r) = .command (.init .v224) r
      | none => ∃ why, decodeFrame (b :: r) = .illegal why r) ∧
    (0x05 ≤ b.toNat → ∃ why, decodeFrame (b :: r) = .illegal why r)

/-- No look-ahead (R83): bytes that follow a whole frame do not change how it decodes; they are left over. -/
def Obligations.LaterBytesLeaveDecodingAlone : Prop :=
  ∀ s more : List Byte,
    (∀ i rest, decodeFrame s = .command i rest → decodeFrame (s ++ more) = .command i (rest ++ more)) ∧
    (∀ why rest, decodeFrame s = .illegal why rest → decodeFrame (s ++ more) = .illegal why (rest ++ more))

/-! ## The step -/

/-- A step runs the decoded command: with no RESET asserted and a whole command frame at the head of `CMD_IN`, the step consumes
the frame and is `exec` of the command. -/
def Obligations.StepPerformsDecodedCommand : Prop :=
  ∀ (s : State) (i : Instr) (rest : List Byte), s.resetIn = false → decodeFrame s.cmdIn = .command i rest →
    step s = exec i { s with cmdIn := rest }

/-- An illegal opcode byte (R80): it is consumed alone, nothing else changes, and the answer is 0x03. Every other byte is no
illegal frame. -/
def Obligations.IllegalByteIsAnswered : Prop :=
  ∀ (s : State) (b : Byte) (rest : List Byte), s.resetIn = false → s.cmdIn = b :: rest →
    if 0x05 ≤ b.toNat ∨ (b = 0x04 ∧ Config.iv224 = none) then
      step s = .next { s with cmdIn := rest, rspOut := s.rspOut ++ [0x03] }
    else ∀ why r, decodeFrame s.cmdIn ≠ .illegal why r

/-- Waiting (R81, R216): without a whole frame and without RESET, no number of steps changes anything. That such a step is a
next state, the same state, is the model's choice (log 6). -/
def Obligations.WaitingChangesNothing : Prop :=
  ∀ (s : State) (k : Nat), s.waiting → runSteps k s = .next s

/-- The engine never stops (R87 "every command in every context has exactly one outcome", R206 (d)): every step of every state
gives a next state. That a wait is one is the model's choice (log 6), and so is that a taken RESET is one (log 2). -/
def Obligations.EveryStepHasANextState : Prop :=
  ∀ s : State, ∃ t, step s = .next t

/-- RESET (R230): after the step that takes it both streams are empty, `phase` is UNINIT, the input is no longer asserted, and the
next byte written is taken as an opcode byte. That a step takes RESET before any frame is the model's choice (log 2). -/
def Obligations.ResetEmptiesStreamsAndUninitializes : Prop :=
  ∀ s : State, ∃ t, step s.hostReset = .next t ∧ t.ctx.phase = .uninit ∧ t.cmdIn = [] ∧ t.rspOut = [] ∧ t.resetIn = false ∧
    ∀ bytes, (t.hostWrite bytes).cmdIn = bytes

/-- What the spec states of the state right after reset (R39, R230): `phase` UNINIT, both streams empty; and no RESET pending. -/
def Obligations.StateAfterReset : Prop :=
  State.reset.ctx.phase = .uninit ∧ State.reset.cmdIn = [] ∧ State.reset.rspOut = [] ∧ State.reset.resetIn = false

/-- One frame in, one response out, in order (R71, R62): a step that is not a RESET either changes nothing, or takes a non-empty
frame off the head of `CMD_IN` and appends exactly one response frame to `RSP_OUT`. That waiting is a step that changes nothing is the model's choice (log 6). -/
def Obligations.OneResponsePerFrame : Prop :=
  ∀ s : State, s.resetIn = false →
    (s.waiting ∧ step s = .next s) ∨
      ∃ (frame : List Byte) (k : Command) (t : State), step s = .next t ∧ isFrameOf frame k ∧ s.cmdIn = frame ++ t.cmdIn ∧
        t.rspOut = s.rspOut ++ (performCommand k s.ctx).2.frame ∧ t.ctx = (performCommand k s.ctx).1 ∧
        t.resetIn = false ∧ t.freeCount = s.freeCount

/-- Bytes the host writes while a whole frame stands in `CMD_IN` (R240) do not change the step; they wait behind it. -/
def Obligations.HostWriteCommutesWithStep : Prop :=
  ∀ (s t : State) (bytes : List Byte), s.resetIn = false → ¬ s.waiting → step s = .next t →
    step (s.hostWrite bytes) = .next (t.hostWrite bytes)

/-- The end of a run (R239, R237): with no RESET, as many steps as there are bytes bring the engine to waiting; then the run is
over, or the engine is stuck inside a frame. That waiting is a step that changes nothing is the model's choice (log 6). -/
def Obligations.RunEndsWaiting : Prop :=
  ∀ s : State, s.resetIn = false → ∃ t, runSteps s.cmdIn.length s = .next t ∧ t.waiting ∧ (t.runOver ∨ t.stuck)

/-- The byte layer refines the abstract step (R87, R71, R62, R82): on a stream of whole frames, the machine performs the abstract
commands in order, ends in their context, and emits their responses' frames in order. -/
def Obligations.ByteLayerRefinesAbstractStep : Prop :=
  ∀ (fs : List (List Byte × Command)) (s : State), s.resetIn = false → s.cmdIn = (fs.map Prod.fst).flatten →
    (∀ f ∈ fs, isFrameOf f.1 f.2) →
    runSteps fs.length s = .next { s with
      cmdIn := []
      ctx := (performCommands (fs.map Prod.snd) s.ctx).1
      rspOut := s.rspOut ++ ((performCommands (fs.map Prod.snd) s.ctx).2.map Response.frame).flatten }

/-! ## INIT -/

/-- `INIT(V256)` (R150, R153): in every phase it completes, `total` is 0, `dlen` is 32, `H` is the table, `phase` is ACTIVE, the
answer is 0x00; `buffer` and everything else is as before. -/
def Obligations.Init256OpensEmptyMessage : Prop :=
  ∀ s : State, exec (.init .v256) s = .next { s with
    ctx :=
      { H := #v[0x6a09e667, 0xbb67ae85, 0x3c6ef372, 0xa54ff53a, 0x510e527f, 0x9b05688c, 0x1f83d9ab, 0x5be0cd19]
        buffer := s.ctx.buffer
        total := 0
        dlen := .len32
        phase := .active }
    rspOut := s.rspOut ++ [0x00] }

/-- `INIT(V224)` (R150, R152, R80): with `IV224` present it loads it, `dlen` is 28 and the rest is as for V256; with `IV224` absent
0x04 is no command, the decoder says so, and the term itself acts as the illegal frame does (the model's choice, log 5). -/
def Obligations.Init224DependsOnParameter : Prop :=
  ∀ s : State,
    match Config.iv224 with
    | some iv =>
      (∀ rest, decodeFrame (0x04 :: rest) = .command (.init .v224) rest) ∧
      exec (.init .v224) s = .next { s with
        ctx := { H := iv, buffer := s.ctx.buffer, total := 0, dlen := .len28, phase := .active }
        rspOut := s.rspOut ++ [0x00] }
    | none =>
      (∀ rest, decodeFrame (0x04 :: rest) = .illegal .iv224Absent rest) ∧
      exec (.init .v224) s = .next { s with rspOut := s.rspOut ++ [0x03] }

/-- `INIT` forgets (R154): whatever two contexts were before it, after it they agree, so that nothing later tells them apart; and
`INIT` twice leaves the context of `INIT` once. -/
def Obligations.InitForgetsEarlierMessages : Prop :=
  ∀ (v : Variant) (s₁ s₂ : State), variantPresent v = true → s₁.cmdIn = s₂.cmdIn → s₁.rspOut = s₂.rspOut →
    s₁.resetIn = s₂.resetIn →
    ∃ t₁ t₂ t₃, exec (.init v) s₁ = .next t₁ ∧ exec (.init v) s₂ = .next t₂ ∧ t₁.Agree t₂ ∧
      exec (.init v) t₁ = .next t₃ ∧ t₃.ctx = t₁.ctx

/-! ## UPDATE -/

/-- `UPDATE(data)` in phase ACTIVE (R160, R161, R164, R27): it completes; `total` grows by the length modulo 2^64; `H` is the chain
over the whole blocks of the live bytes followed by `data`; the live bytes are what is left over; the answer is 0x00; `dlen`,
`phase` and the rest of the machine are as before. -/
def Obligations.UpdateAppendsToMessage : Prop :=
  ∀ (s : State) (data : List Byte), s.ctx.phase = .active →
    ∃ t, exec (.update data) s = .next t ∧
      t.ctx.total.toNat = (s.ctx.total.toNat + data.length) % 2 ^ 64 ∧
      t.ctx.H = chain s.ctx.H (messageBlocks (liveBytes s.ctx ++ data)) ∧
      liveBytes t.ctx = messageTail (liveBytes s.ctx ++ data) ∧
      t.ctx.dlen = s.ctx.dlen ∧ t.ctx.phase = .active ∧
      t.rspOut = s.rspOut ++ [0x00] ∧ t.cmdIn = s.cmdIn ∧ t.resetIn = s.resetIn ∧ t.freeCount = s.freeCount

/-- The frame of `UPDATE` on the buffer (R162 to R164): the remainder stands at position 0 on, the top-up bytes at the old fill
level on, and every other byte reads as before. That the dead bytes read so is the model's choice (log 9): R163 lets an engine copy
blocks through `buffer`. -/
def Obligations.UpdateWritesOnlyTopUpAndRemainder : Prop :=
  ∀ (s : State) (data : List Byte), s.ctx.phase = .active →
    let fill := s.ctx.total.toNat % 64
    let take := topUpCount fill data.length
    let rest := data.drop take
    ∃ t, exec (.update data) s = .next t ∧
      ∀ k, ∀ hk : k < 64, t.ctx.buffer[k] =
        if k < rest.length % 64 then (messageTail rest).getD k 0
        else if fill ≤ k ∧ k < fill + take then data.getD (k - fill) 0
        else s.ctx.buffer[k]

/-- The corner cases of `UPDATE` (the table of R167). That for `fill = 0` and 64 bytes `buffer` stays as it was, its bytes being
dead, is the model's choice (log 9): R163 lets an engine copy the block through `buffer`. -/
def Obligations.UpdateCornerCases : Prop :=
  ∀ (s : State) (data : List Byte), s.ctx.phase = .active →
    let fill := s.ctx.total.toNat % 64
    let n := data.length
    ∃ t, exec (.update data) s = .next t ∧
      (n = 0 → t.ctx = s.ctx) ∧
      (fill = 0 ∧ n < 64 → t.ctx.H = s.ctx.H ∧ bufRead t.ctx.buffer 0 n = data ∧ t.ctx.total.toNat % 64 = n) ∧
      (fill = 0 ∧ n = 64 → t.ctx.H = compress s.ctx.H data ∧ t.ctx.buffer = s.ctx.buffer) ∧
      (fill = 0 → t.ctx.H = chain s.ctx.H (messageBlocks data) ∧ bufRead t.ctx.buffer 0 (n % 64) = messageTail data) ∧
      (0 < fill ∧ n < 64 - fill →
        t.ctx.H = s.ctx.H ∧ bufRead t.ctx.buffer 0 (fill + n) = bufRead s.ctx.buffer 0 fill ++ data) ∧
      (0 < fill ∧ n = 64 - fill →
        t.ctx.H = compress s.ctx.H (bufRead s.ctx.buffer 0 fill ++ data) ∧
          t.ctx.buffer.toList = bufRead s.ctx.buffer 0 fill ++ data ∧ t.ctx.total.toNat % 64 = 0) ∧
      (0 < fill ∧ 64 - fill < n →
        t.ctx.H = chain (compress s.ctx.H (bufRead s.ctx.buffer 0 fill ++ data.take (64 - fill)))
          (messageBlocks (data.drop (64 - fill)))) ∧
      (2 ^ 64 ≤ s.ctx.total.toNat + n ∧ n < 2 ^ 64 → t.ctx.total.toNat = s.ctx.total.toNat + n - 2 ^ 64)

/-- `UPDATE` and `FINALIZE` out of order (R202, R203, R166, R178): in UNINIT the answer is 0x01, in SPENT it is 0x02, and nothing else
changes, whatever the payload. -/
def Obligations.OutOfOrderUseIsAnswered : Prop :=
  ∀ (s : State) (i : Instr), (i = .finalize ∨ ∃ data, i = .update data) →
    (s.ctx.phase = .uninit → exec i s = .next { s with rspOut := s.rspOut ++ [0x01] }) ∧
    (s.ctx.phase = .spent → exec i s = .next { s with rspOut := s.rspOut ++ [0x02] })

/-- Chunking invariance (R165): two `UPDATE`s leave the same `H`, `total`, `dlen`, `phase` and live bytes as one with the
concatenation. -/
def Obligations.ChunkingInvariance : Prop :=
  ∀ (s : State) (f₁ f₂ : List Byte), s.ctx.phase = .active →
    ∃ t₁ t₂ t, exec (.update f₁) s = .next t₁ ∧ exec (.update f₂) t₁ = .next t₂ ∧ exec (.update (f₁ ++ f₂)) s = .next t ∧
      t₂.ctx.H = t.ctx.H ∧ t₂.ctx.total = t.ctx.total ∧ t₂.ctx.dlen = t.ctx.dlen ∧ t₂.ctx.phase = t.ctx.phase ∧
      liveBytes t₂.ctx = liveBytes t.ctx

/-- Chunking invariance of the digest (R165, R193): for every split of a message, `INIT`, the `UPDATE`s of the fragments and `FINALIZE`
give, as their last response, the response of `INIT`, one `UPDATE` of the whole and `FINALIZE`. -/
def Obligations.DigestIndependentOfFragments : Prop :=
  ∀ (v : Variant) (fragments : List (List Byte)) (c : Context), variantPresent v = true →
    (performCommands (.instr (.init v) :: fragments.map (fun f => .instr (.update f)) ++ [.instr .finalize]) c).2.getLast? =
      (performCommands [.instr (.init v), .instr (.update fragments.flatten), .instr .finalize] c).2.getLast?

/-- Byte at a time (R168): an `UPDATE` of one byte is `FeedByte`, and `UPDATE(data)` leaves what the fold of `FeedByte` over `data`
leaves, dead bytes apart. -/
def Obligations.UpdateIsFoldOfFeedByte : Prop :=
  ∀ (s : State) (data : List Byte), s.ctx.phase = .active →
    (∀ b, exec (.update [b]) s = .next { s with ctx := feedByte s.ctx b, rspOut := s.rspOut ++ [0x00] }) ∧
    ∃ t, exec (.update data) s = .next t ∧ t.ctx.Agree (data.foldl feedByte s.ctx) ∧
      (data.foldl feedByte s.ctx).H = t.ctx.H ∧ liveBytes (data.foldl feedByte s.ctx) = liveBytes t.ctx

/-! ## FINALIZE -/

/-- `FINALIZE()` in phase ACTIVE (R170 to R177): with `index` at most 55 one block is compressed, from 56 on two; the blocks are the
live bytes, 0x80, zeros and the 64-bit bit length; the answer is 0x00 and the first `dlen` bytes of the serialized hash value; the
context is spent, `buffer` holds the last block, `total` and `dlen` and the rest of the machine are as before. -/
def Obligations.FinalizePadsCompressesEmits : Prop :=
  ∀ s : State, s.ctx.phase = .active →
    let index := s.ctx.total.toNat % 64
    let tail := bufRead s.ctx.buffer 0 index
    let L := bytes64 (BitVec.ofNat 64 (s.ctx.total.toNat * 8))
    let last := if index ≤ 55 then tail ++ [0x80] ++ zeros (55 - index) ++ L else zeros 56 ++ L
    let H' :=
      if index ≤ 55 then compress s.ctx.H last
      else compress (compress s.ctx.H (tail ++ [0x80] ++ zeros (63 - index))) last
    ∃ buf : Buffer, buf.toList = last ∧
      exec .finalize s = .next { s with
        ctx := { s.ctx with H := H', buffer := buf, phase := .spent }
        rspOut := s.rspOut ++ 0x00 :: (serialize H').take s.ctx.dlen.toNat }

/-- The digest of the message (R179, R132, R26): from a context that holds a message of fewer than 2^61 bytes, `FINALIZE` emits the
digest of the padded message's chain from the variant's initial hash value. -/
def Obligations.FinalizeEmitsDigestOfMessage : Prop :=
  ∀ (s : State) (v : Variant) (iv : HashState) (m : List Byte), Represents s.ctx v m → initialHash v = some iv →
    m.length < 2 ^ 61 →
    ∃ t, exec .finalize s = .next t ∧ t.rspOut = s.rspOut ++ 0x00 :: digestOf iv (digestLengthOf v) m ∧
      t.ctx.phase = .spent ∧ t.ctx.H = messageHash iv m

/-- The padded message is a whole number of blocks, `(n + 8) div 64 + 1` of them, and with at most 63 zeros (R179); the spec's table of
boundary lengths (R181) is an instance. -/
def Obligations.PaddedMessageIsWholeBlocks : Prop :=
  ∀ m : List Byte,
    (pad m).length % 64 = 0 ∧ (messageBlocks (pad m)).length = (m.length + 8) / 64 + 1 ∧
    (∀ b ∈ messageBlocks (pad m), b.length = 64) ∧ (messageBlocks (pad m)).flatten = pad m ∧
    (pad m).length ≤ m.length + 72

/-! ## DIGEST -/

/-- `DIGEST(msg)` is the composition (R190, R193, R85): the context of `INIT(V256)`, `UPDATE(msg)`, `FINALIZE()`, and of their three
responses only the last. -/
def Obligations.DigestIsComposition : Prop :=
  ∀ (s : State) (msg : List Byte),
    ∃ t₁ t₂ t₃ d, exec (.init .v256) s = .next t₁ ∧ exec (.update msg) t₁ = .next t₂ ∧ exec .finalize t₂ = .next t₃ ∧
      d.length = 32 ∧ t₃.rspOut = s.rspOut ++ [0x00] ++ [0x00] ++ 0x00 :: d ∧
      exec (.digest msg) s = .next { s with ctx := t₃.ctx, rspOut := s.rspOut ++ 0x00 :: d }

/-- `DIGEST` completes in every phase (R191, R192): status 0x00 and 32 bytes; the context is spent, `dlen` is 32 and `total` is the
length; the rest of the machine is as before. -/
def Obligations.DigestCompletesInEveryPhase : Prop :=
  ∀ (s : State) (msg : List Byte),
    ∃ t d, exec (.digest msg) s = .next t ∧ t.rspOut = s.rspOut ++ 0x00 :: d ∧ d.length = 32 ∧ t.ctx.phase = .spent ∧
      t.ctx.dlen = .len32 ∧ t.ctx.total.toNat = msg.length % 2 ^ 64 ∧ t.cmdIn = s.cmdIn ∧ t.resetIn = s.resetIn ∧
      t.freeCount = s.freeCount

/-- The engine computes the hash (R179, R190, R132): for every message of fewer than 2^61 bytes and in every state, `DIGEST(msg)` answers
0x00 and the 32-byte serialization of the chain over the padded message from `IV256`. -/
def Obligations.DigestComputesTheHash : Prop :=
  ∀ (s : State) (msg : List Byte), msg.length < 2 ^ 61 →
    ∃ t, exec (.digest msg) s = .next t ∧ t.rspOut = s.rspOut ++ 0x00 :: serialize (messageHash iv256 msg)

/-! ## Lifecycle, outcomes, invariants -/

/-- The phase transitions (the table of R29). -/
def Obligations.PhaseTransitions : Prop :=
  ∀ (s : State) (i : Instr), i.wf = true → ∃ t, exec i s = .next t ∧ t.ctx.phase =
    match i, s.ctx.phase with
    | .init _, _ => .active
    | .update _, p => p
    | .finalize, .uninit => .uninit
    | .finalize, _ => .spent
    | .digest _, _ => .spent

/-- The outcome table (R217): the status of every command in every phase and how many digest bytes follow it, and the answer to
an illegal byte, which is the same in every phase. -/
def Obligations.OutcomeTable : Prop :=
  (∀ (s : State) (i : Instr), i.wf = true → ∃ t status d, exec i s = .next t ∧
    t.rspOut = s.rspOut ++ Status.code status :: d ∧
    (status, d.length) =
      match i, s.ctx.phase with
      | .init _, _ => (.ok, 0)
      | .update _, .uninit => (.notInitialized, 0)
      | .update _, .active => (.ok, 0)
      | .update _, .spent => (.alreadyFinalized, 0)
      | .finalize, .uninit => (.notInitialized, 0)
      | .finalize, .active => (.ok, s.ctx.dlen.toNat)
      | .finalize, .spent => (.alreadyFinalized, 0)
      | .digest _, _ => (.ok, 32)) ∧
  ∀ (s : State) (b : Byte) (rest : List Byte), s.resetIn = false → s.cmdIn = b :: rest →
    (0x05 ≤ b.toNat ∨ (b = 0x04 ∧ Config.iv224 = none)) →
    ∃ t, step s = .next t ∧ t.rspOut = s.rspOut ++ [Status.code .illegalCommand] ∧ t.ctx = s.ctx

/-- Errors (R206): a step that answers a status other than 0x00 has consumed the whole frame, has changed nothing else, and has
answered that one byte. -/
def Obligations.ErrorsChangeNothing : Prop :=
  ∀ (s t : State) (e : Byte) (d : List Byte), s.resetIn = false → step s = .next t → t.rspOut = s.rspOut ++ e :: d → e ≠ 0x00 →
    d = [] ∧ ∃ rest, t = { s with cmdIn := rest, rspOut := s.rspOut ++ [e] } ∧
      ((∃ i, decodeFrame s.cmdIn = .command i rest ∧ s.cmdIn = encode i ++ rest) ∨
        ∃ why b, decodeFrame s.cmdIn = .illegal why rest ∧ s.cmdIn = b :: rest)

/-- What each command does not write (the table of R37; R153, R180). -/
def Obligations.FieldsEachCommandLeavesAlone : Prop :=
  ∀ (s : State) (i : Instr), ∃ t, exec i s = .next t ∧ t.cmdIn = s.cmdIn ∧ t.resetIn = s.resetIn ∧ t.freeCount = s.freeCount ∧
    (∃ r, r ≠ [] ∧ t.rspOut = s.rspOut ++ r) ∧
    match i with
    | .init _ => t.ctx.buffer = s.ctx.buffer
    | .update _ => t.ctx.dlen = s.ctx.dlen ∧ t.ctx.phase = s.ctx.phase
    | .finalize => t.ctx.total = s.ctx.total ∧ t.ctx.dlen = s.ctx.dlen
    | .digest _ => True

/-- Within a message only Compress writes `H`, once per full block (R27): `UPDATE` in phase ACTIVE by `(fill + n) div 64` blocks of 64
bytes, `FINALIZE` by one or two. -/
def Obligations.HashChangesOnlyByCompression : Prop :=
  ∀ (s : State) (i : Instr), (i = .finalize ∨ ∃ data, i = .update data) →
    ∃ t blocks, exec i s = .next t ∧ t.ctx.H = chain s.ctx.H blocks ∧ (∀ b ∈ blocks, b.length = 64) ∧
      blocks.length =
        match i, s.ctx.phase with
        | .update data, .active => (s.ctx.total.toNat % 64 + data.length) / 64
        | .finalize, .active => if s.ctx.total.toNat % 64 ≤ 55 then 1 else 2
        | _, _ => 0

/-- The lifecycle invariant is kept (R26): in phase ACTIVE the context holds some message, and every step from such a state leads to
such a state. -/
def Obligations.StepKeepsMessageInvariant : Prop :=
  ∀ s t : State, Inv s → step s = .next t → Inv t

/-- The invariant with the message in it (R26, R160): `UPDATE` turns a context that holds `m` into one that holds `m` followed by the
payload. -/
def Obligations.UpdateExtendsHeldMessage : Prop :=
  ∀ (s : State) (v : Variant) (m data : List Byte), Represents s.ctx v m →
    ∃ t, exec (.update data) s = .next t ∧ Represents t.ctx v (m ++ data)

/-- The invariant holds at reset. -/
def Obligations.MessageInvariantAtReset : Prop := Inv State.reset

/-- Dead bytes and stale fields are never observed (R36, R38, R180): machines that agree take steps to machines that agree; so the
bytes of `RSP_OUT` never depend on a dead buffer byte, nor, outside ACTIVE, on anything but `phase`. -/
def Obligations.StepKeepsAgreement : Prop :=
  ∀ s₁ s₂ : State, s₁.Agree s₂ → ∃ t₁ t₂, step s₁ = .next t₁ ∧ step s₂ = .next t₂ ∧ t₁.Agree t₂

/-- What reset leaves unspecified is never observed (R39, R239): from two machines in phase UNINIT with the same streams, however their
other fields differ, the same number of steps leads to the same `RSP_OUT`. -/
def Obligations.UnspecifiedResetContentsUnobservable : Prop :=
  ∀ (s₁ s₂ : State) (k : Nat), s₁.ctx.phase = .uninit → s₂.ctx.phase = .uninit → s₁.cmdIn = s₂.cmdIn →
    s₁.rspOut = s₂.rspOut → s₁.resetIn = s₂.resetIn →
    ∃ t₁ t₂, runSteps k s₁ = .next t₁ ∧ runSteps k s₂ = .next t₂ ∧ t₁.rspOut = t₂.rspOut ∧ t₁.cmdIn = t₂.cmdIn

/-! ## Compress -/

/-- The message schedule (R121, R122): 64 words, the first sixteen the block read big-endian, the others by the recurrence. -/
def Obligations.ScheduleRecurrence : Prop :=
  ∀ blk : List Byte,
    let W := fun t => (schedule blk).getD t 0
    (schedule blk).length = 64 ∧
    (∀ j, j < 16 → W j = be32 (blk.getD (4 * j) 0) (blk.getD (4 * j + 1) 0) (blk.getD (4 * j + 2) 0) (blk.getD (4 * j + 3) 0)) ∧
    (∀ t, 16 ≤ t → t < 64 → W t = smallSigma1 (W (t - 2)) + W (t - 7) + smallSigma0 (W (t - 15)) + W (t - 16))

/-- The 16-word rolling schedule is numerically identical to the full one (R123). -/
def Obligations.RollingScheduleIsIdentical : Prop :=
  ∀ (blk : List Byte) (t : Nat), t < 64 → rollingWord blk t = (schedule blk).getD t 0

/-- The textbook round is the source's round (R126). -/
def Obligations.TextbookRoundIsIdentical : Prop :=
  ∀ (w : Working) (kt wt : Word), roundTextbook w kt wt = sourceRound w kt wt

/-- `Compress` with the rolling schedule and the fixed slots is `Compress` with the full schedule and the rotated variables, on every
state and block (R11, R123, R131). -/
def Obligations.RollingSlotCompressIsIdentical : Prop :=
  ∀ (S : HashState) (blk : List Byte), compressRollingSlots S blk = compress S blk

/-- The round constants (R127): `K[t]` is `floor(cbrt(p_t · 2^96)) mod 2^32` for the `t`-th prime `p_t`. -/
def Obligations.RoundConstantsAreCubeRoots : Prop :=
  K.length = 64 ∧ ∀ t, t < 64 → ∃ r : Nat, r ^ 3 ≤ Nat.nth Nat.Prime t * 2 ^ 96 ∧ Nat.nth Nat.Prime t * 2 ^ 96 < (r + 1) ^ 3 ∧
    (K.getD t 0).toNat = r % 2 ^ 32

/-- The initial hash value (R151): `IV256[i]` is `floor(sqrt(p_i · 2^64)) mod 2^32` for the `i`-th prime `p_i`. -/
def Obligations.InitialHashIsSquareRoots : Prop :=
  ∀ i, ∀ h : i < 8, iv256[i].toNat = Nat.sqrt (Nat.nth Nat.Prime i * 2 ^ 64) % 2 ^ 32

/-- The default of `IV224` (R152, general knowledge, log 4): `floor(sqrt(p · 2^128)) mod 2^32` for the ninth to sixteenth primes. -/
def Obligations.DefaultIv224IsSquareRoots : Prop :=
  ∀ i, ∀ h : i < 8, iv224Default[i].toNat = Nat.sqrt (Nat.nth Nat.Prime (8 + i) * 2 ^ 128) % 2 ^ 32

/-! ## Primitives, conversions, buffer -/

/-- `rotr` (R102): bit `i` of the result is bit `(i + n) mod 32` of the operand. -/
def Obligations.RotateMovesBits : Prop :=
  ∀ (x : Word) (n i : Nat), 0 < n → n < 32 → i < 32 → (rotr x n).getLsbD i = x.getLsbD ((i + n) % 32)

/-- `Ch` is a choice and `Maj` a majority, bit by bit, and the spec's other expressions of them agree (R104, R105). -/
def Obligations.ChoiceAndMajority : Prop :=
  ∀ x y z : Word,
    (∀ i, i < 32 → (ch x y z).getLsbD i = if x.getLsbD i then y.getLsbD i else z.getLsbD i) ∧
    (∀ i, i < 32 → (maj x y z).getLsbD i =
      decide (2 ≤ (x.getLsbD i).toNat + (y.getLsbD i).toNat + (z.getLsbD i).toNat)) ∧
    ch x y z = chSelect x y z ∧ ch x y z = chOr x y z ∧ maj x y z = majOr x y z ∧ maj x y z = majXor x y z

/-- The four sigma functions, bit by bit for every word, with their amounts (R106 to R109); `x >> n` is the division by `2^n` (R103);
and the four are linear over exclusive or, which `40_primitives.md` section 2 derives ("All six functions are linear over XOR
except `Ch` and `Maj`"). -/
def Obligations.SigmasAreLinear : Prop :=
  (∀ (x : Word) (i : Nat), i < 32 →
    (bigSigma0 x).getLsbD i =
      (x.getLsbD ((i + 2) % 32) ^^ x.getLsbD ((i + 13) % 32) ^^ x.getLsbD ((i + 22) % 32)) ∧
    (bigSigma1 x).getLsbD i =
      (x.getLsbD ((i + 6) % 32) ^^ x.getLsbD ((i + 11) % 32) ^^ x.getLsbD ((i + 25) % 32)) ∧
    (smallSigma0 x).getLsbD i =
      (x.getLsbD ((i + 7) % 32) ^^ x.getLsbD ((i + 18) % 32) ^^ (if i + 3 < 32 then x.getLsbD (i + 3) else false)) ∧
    (smallSigma1 x).getLsbD i =
      (x.getLsbD ((i + 17) % 32) ^^ x.getLsbD ((i + 19) % 32) ^^ (if i + 10 < 32 then x.getLsbD (i + 10) else false))) ∧
  (∀ (x : Word) (n : Nat), (shr x n).toNat = x.toNat / 2 ^ n) ∧
  ∀ x y : Word,
    bigSigma0 (x ^^^ y) = bigSigma0 x ^^^ bigSigma0 y ∧ bigSigma1 (x ^^^ y) = bigSigma1 x ^^^ bigSigma1 y ∧
    smallSigma0 (x ^^^ y) = smallSigma0 x ^^^ smallSigma0 y ∧ smallSigma1 (x ^^^ y) = smallSigma1 x ^^^ smallSigma1 y

/-- Big-endian conversions (R52 to R54): `BE32` is the sum of its bytes' weights; byte `4i + k` of the serialization is
`H[i][31−8k : 24−8k]`; byte `k` of a length field is `L[63−8k : 56−8k]`. -/
def Obligations.BigEndianConversions : Prop :=
  (∀ b0 b1 b2 b3 : Byte,
    (be32 b0 b1 b2 b3).toNat = b0.toNat * 2 ^ 24 + b1.toNat * 2 ^ 16 + b2.toNat * 2 ^ 8 + b3.toNat) ∧
  (∀ h : HashState, (serialize h).length = 32 ∧ ∀ i k, ∀ hi : i < 8, k < 4 →
    (serialize h).getD (4 * i + k) 0 = h[i].extractLsb' (24 - 8 * k) 8) ∧
  (∀ d : Dword, (bytes64 d).length = 8 ∧ ∀ k, k < 8 → (bytes64 d).getD k 0 = d.extractLsb' (56 - 8 * k) 8)

/-- `BufRead` and `BufWrite` (R66), for every access in range. -/
def Obligations.BufferReadAfterWrite : Prop :=
  ∀ (b : Buffer) (i : Nat) (v : List Byte), i + v.length ≤ 64 →
    bufRead (bufWrite b i v) i v.length = v ∧
    (∀ k, ∀ h : k < 64, k < i ∨ i + v.length ≤ k → (bufWrite b i v)[k] = b[k]) ∧
    (∀ j n, j + n ≤ 64 → (bufRead b j n).length = n ∧ ∀ k, k < n → ∀ h : j + k < 64, (bufRead b j n)[k]? = some b[j + k])

/-- The marker in a word-modelled buffer (R56): writing 0x80 at `index` and clearing the rest of its word is the word formula. -/
def Obligations.MarkerWordForm : Prop :=
  ∀ (b : Buffer) (index : Nat), ∀ h : index < 64,
    bufferWord (bufWrite b index (0x80 :: zeros (3 - index % 4))) (index / 4) (by omega) =
      markerWord (bufferWord b (index / 4) (by omega)) index

/-- Counter arithmetic (R110): addition and scaling modulo 2^64; the fill level is the low six bits. -/
def Obligations.CounterArithmetic : Prop :=
  ∀ (total : Dword) (n : Nat),
    (addLength total n).toNat = (total.toNat + n) % 2 ^ 64 ∧
    fillLevel total = total.toNat % 64 ∧ fillLevel total = (total.extractLsb' 0 6).toNat ∧
    (bitLength total).toNat = (total.toNat * 8) % 2 ^ 64 ∧ bitLength total = total <<< 3
end

