-- ==== Sys2Proof/Laws/Buffer.lean ====
section
/-! SUPPORT. What `BufRead`, `BufWrite` and the byte-order conversions do, once and for all (R52 to R54, R66). -/

namespace Sys2Proof.Machine

theorem fillLevel_lt (total : Dword) : fillLevel total < 64 := Nat.mod_lt _ (by decide)

@[simp] theorem length_zeros (k : Nat) : (zeros k).length = k := by simp [zeros]

@[simp] theorem length_bytes32 (w : Word) : (bytes32 w).length = 4 := rfl

@[simp] theorem length_bytes64 (d : Dword) : (bytes64 d).length = 8 := rfl

@[simp] theorem bufWrite_nil (b : Buffer) (i : Nat) : bufWrite b i [] = b := rfl

/-- `BufWrite` writes `v[k]` at `i + k` and nothing else. -/
theorem getElem_bufWrite (v : List Byte) (b : Buffer) (i k : Nat) (hk : k < 64) :
    (bufWrite b i v)[k] = if i ≤ k ∧ k < i + v.length then v.getD (k - i) 0 else b[k] := by
  induction v generalizing b i with
  | nil => simp
  | cons x xs ih =>
    rw [bufWrite, ih, Vector.getElem_setIfInBounds]
    by_cases h : i = k
    · subst h; simp
    · rcases Nat.lt_or_ge k (i + 1) with h1 | h1
      · have : ¬ i ≤ k := by omega
        have : ¬ i + 1 ≤ k := by omega
        simp [*]
      · obtain ⟨j, rfl⟩ := Nat.exists_eq_add_of_le h1
        have e1 : i + 1 + j - i = j + 1 := by omega
        have e2 : i + 1 + j - (i + 1) = j := by omega
        have e3 : i ≤ i + 1 + j := by omega
        simp only [h1, h, e1, e2, e3, List.length_cons, true_and, if_false, List.getD_cons_succ]
        by_cases h2 : i + 1 + j < i + 1 + xs.length
        · have h3 : i + 1 + j < i + (xs.length + 1) := by omega
          simp [h2, h3]
        · have h3 : ¬ i + 1 + j < i + (xs.length + 1) := by omega
          simp [h2, h3]

/-- The bytes of a buffer after an in-range write: before it, the written bytes, after it. -/
theorem toList_bufWrite (b : Buffer) (i : Nat) (v : List Byte) (h : i + v.length ≤ 64) :
    (bufWrite b i v).toList = b.toList.take i ++ v ++ b.toList.drop (i + v.length) := by
  apply List.ext_getElem
  · simp; omega
  intro k h1 h2
  have hk : k < 64 := by simpa using h1
  rw [Vector.getElem_toList, getElem_bufWrite]
  simp only [List.getElem_append, List.getElem_take, List.getElem_drop, Vector.getElem_toList, List.length_append,
    List.length_take, Vector.length_toList, Nat.min_eq_left (show i ≤ 64 by omega)]
  split_ifs with h3 h4 h5 h5 <;> try omega
  · rw [List.getD_eq_getElem _ _ (by omega)]
  · rfl
  · congr 1; omega

@[simp] theorem bufRead_all (b : Buffer) : bufRead b 0 64 = b.toList := by
  simp [bufRead]

theorem length_bufRead (b : Buffer) (i n : Nat) (h : i + n ≤ 64) : (bufRead b i n).length = n := by
  simp [bufRead]; omega

theorem length_liveBytes (c : Context) : (liveBytes c).length = fillLevel c.total :=
  length_bufRead _ _ _ (by have := fillLevel_lt c.total; omega)

/-- Reading up to the end of an in-range write: the bytes before it, then the written bytes. -/
theorem bufRead_bufWrite (b : Buffer) (i : Nat) (v : List Byte) (h : i + v.length ≤ 64) :
    bufRead (bufWrite b i v) 0 (i + v.length) = bufRead b 0 i ++ v := by
  rw [bufRead, toList_bufWrite _ _ _ h, bufRead, List.drop_zero, List.drop_zero, List.take_append_of_le_length (by simp; omega),
    List.take_of_length_le (by simp)]

/-- Two writes, the second one right after the first: one write. -/
theorem bufWrite_bufWrite (v w : List Byte) (b : Buffer) (i : Nat) :
    bufWrite (bufWrite b i v) (i + v.length) w = bufWrite b i (v ++ w) := by
  induction v generalizing b i with
  | nil => rfl
  | cons x xs ih =>
    rw [List.cons_append, bufWrite, bufWrite, ← ih, List.length_cons]
    congr 1; omega

/-- A write that covers the buffer from `i` on leaves the live prefix and the written bytes. -/
theorem toList_bufWrite_full (b : Buffer) (i : Nat) (v : List Byte) (h : i + v.length = 64) :
    (bufWrite b i v).toList = bufRead b 0 i ++ v := by
  rw [toList_bufWrite _ _ _ (by omega), h, bufRead, List.drop_of_length_le (by simp), List.append_nil]
  simp

/-! Counter arithmetic (R110). -/

theorem fillLevel_addLength (total : Dword) (n : Nat) :
    fillLevel (addLength total n) = (fillLevel total + n) % 64 := by
  simp only [fillLevel, addLength, BitVec.toNat_add, BitVec.toNat_ofNat]
  omega

theorem fillLevel_ofNat (n : Nat) : fillLevel (BitVec.ofNat 64 n) = n % 64 := by
  simp only [fillLevel, BitVec.toNat_ofNat]
  omega

theorem addLength_add (total : Dword) (m n : Nat) :
    addLength (addLength total m) n = addLength total (m + n) := by
  simp [addLength, BitVec.add_assoc, BitVec.ofNat_add]

theorem bitLength_ofNat (n : Nat) : bitLength (BitVec.ofNat 64 n) = BitVec.ofNat 64 (8 * n) := by
  apply BitVec.eq_of_toNat_eq
  simp [bitLength, BitVec.toNat_mul, Nat.mul_comm]

/-! Big-endian conversions. -/

theorem beNat_append_singleton (bs : List Byte) (b : Byte) : beNat (bs ++ [b]) = beNat bs * 256 + b.toNat := by
  simp [beNat]

/-- `LEN` read back from the eight bytes written for it (R78). -/
theorem beNat_bytes64 (d : Dword) : beNat (bytes64 d) = d.toNat := by
  simp only [beNat, bytes64, List.foldl_cons, List.foldl_nil, BitVec.extractLsb'_toNat, Nat.shiftRight_eq_div_pow]
  have := d.isLt
  omega

theorem beNat_lt (bs : List Byte) : beNat bs < 256 ^ bs.length := by
  induction bs using List.reverseRecOn with
  | nil => simp [beNat]
  | append_singleton bs b ih =>
    rw [beNat_append_singleton, List.length_append, List.length_singleton, pow_succ]
    have := b.isLt
    omega

/-- Eight bytes are the big-endian bytes of the number they stand for (R78). -/
theorem bytes64_beNat (bs : List Byte) (h : bs.length = 8) : bytes64 (BitVec.ofNat 64 (beNat bs)) = bs := by
  match bs, h with
  | [b0, b1, b2, b3, b4, b5, b6, b7], _ =>
    have h0 := b0.isLt; have h1 := b1.isLt; have h2 := b2.isLt; have h3 := b3.isLt
    have h4 := b4.isLt; have h5 := b5.isLt; have h6 := b6.isLt; have h7 := b7.isLt
    simp only [bytes64, beNat, List.foldl_cons, List.foldl_nil, List.cons.injEq, and_true]
    refine ⟨?_, ?_, ?_, ?_, ?_, ?_, ?_, ?_⟩ <;> apply BitVec.eq_of_toNat_eq <;>
      simp only [BitVec.extractLsb'_toNat, BitVec.toNat_ofNat, Nat.shiftRight_eq_div_pow] <;> omega

end Sys2Proof.Machine
end

