-- ==== Sys2Proof/Laws/Decode.lean ====
section
/-! SUPPORT. What the decoder can answer (R83), and how it reads what the encoder writes. -/

namespace Sys2Proof

open Machine

/-- The five opcode bytes that pass the field checks (R73, R80). -/
theorem opcode_legal : ∀ b : Byte, opcodeRsv b = 0 → ¬ (opcodeV b = 1 ∧ opcodeOp b ≠ 0b00) →
    b = 0x00 ∨ b = 0x01 ∨ b = 0x02 ∨ b = 0x03 ∨ b = 0x04 := by decide +kernel

theorem decodeFrame_init256 (r : List Byte) : decodeFrame (0x00 :: r) = .command (.init .v256) r := rfl

theorem decodeFrame_update (r : List Byte) : decodeFrame (0x01 :: r) = decodePayload .update r := rfl

theorem decodeFrame_finalize (r : List Byte) : decodeFrame (0x02 :: r) = .command .finalize r := rfl

theorem decodeFrame_digest (r : List Byte) : decodeFrame (0x03 :: r) = decodePayload .digest r := rfl

theorem decodeFrame_init224 (r : List Byte) : decodeFrame (0x04 :: r) =
    if variantPresent .v224 then .command (.init .v224) r else .illegal .iv224Absent r := rfl

/-- Every other byte is an illegal frame of one byte (R80). -/
theorem decodeFrame_illegal (b : Byte) (r : List Byte)
    (h : ¬ (b = 0x00 ∨ b = 0x01 ∨ b = 0x02 ∨ b = 0x03 ∨ b = 0x04)) :
    ∃ why, decodeFrame (b :: r) = .illegal why r := by
  by_cases h1 : opcodeRsv b = 0
  · by_cases h2 : opcodeV b = 1 ∧ opcodeOp b ≠ 0b00
    · exact ⟨_, by rw [decodeFrame, if_neg (by simpa using h1), if_pos h2]⟩
    · exact absurd (opcode_legal b h1 h2) h
  · exact ⟨_, by rw [decodeFrame, if_pos (by simpa using h1)]⟩

/-- A payload frame is read back: eight length bytes, the payload, the rest (R72, R78). -/
theorem decodePayload_encode (mk : List Byte → Instr) (data rest : List Byte) (h : data.length < 2 ^ 64) :
    decodePayload mk (bytes64 (BitVec.ofNat 64 data.length) ++ data ++ rest) = .command (mk data) rest := by
  have hl : (bytes64 (BitVec.ofNat 64 data.length)).length = 8 := rfl
  have hn : beNat (bytes64 (BitVec.ofNat 64 data.length)) = data.length := by
    rw [beNat_bytes64, BitVec.toNat_ofNat, Nat.mod_eq_of_lt h]
  rw [decodePayload, List.append_assoc, List.take_left' hl, List.drop_left' hl, hn, if_neg (by simp), if_neg (by simp),
    List.take_left, List.drop_left]

/-- What a payload decode can answer. -/
theorem decodePayload_cases (mk : List Byte → Instr) (s : List Byte) :
    (decodePayload mk s = .incomplete ∧ (s.length < 8 ∨ s.length < 8 + beNat (s.take 8))) ∨
      ∃ data rest, decodePayload mk s = .command (mk data) rest ∧ data.length < 2 ^ 64 ∧
        s = bytes64 (BitVec.ofNat 64 data.length) ++ data ++ rest := by
  by_cases h1 : s.length < 8
  · exact .inl ⟨by rw [decodePayload, if_pos h1], .inl h1⟩
  by_cases h2 : (s.drop 8).length < beNat (s.take 8)
  · refine .inl ⟨by rw [decodePayload, if_neg h1, if_pos h2], .inr ?_⟩
    simp at h2; omega
  · have hlen : ((s.drop 8).take (beNat (s.take 8))).length = beNat (s.take 8) := by simp at h2 ⊢; omega
    have h8 : (s.take 8).length = 8 := by simp; omega
    refine .inr ⟨_, _, by rw [decodePayload, if_neg h1, if_neg h2], ?_, ?_⟩
    · rw [hlen]; have := beNat_lt (s.take 8); rw [h8] at this; omega
    · rw [hlen, bytes64_beNat _ h8, List.append_assoc, List.take_append_drop, List.take_append_drop]

/-- Everything the decoder can answer, with the bytes that make it answer so (R83). -/
theorem decodeFrame_cases (s : List Byte) :
    (∃ i rest, decodeFrame s = .command i rest ∧ i.wf = true ∧ s = encode i ++ rest) ∨
      (∃ why b rest, decodeFrame s = .illegal why rest ∧ s = b :: rest) ∨ decodeFrame s = .incomplete := by
  match s with
  | [] => exact .inr (.inr rfl)
  | b :: r =>
    by_cases h : b = 0x00 ∨ b = 0x01 ∨ b = 0x02 ∨ b = 0x03 ∨ b = 0x04
    · rcases h with rfl | rfl | rfl | rfl | rfl
      · exact .inl ⟨_, r, decodeFrame_init256 r, rfl, rfl⟩
      · rcases decodePayload_cases .update r with ⟨h, -⟩ | ⟨data, rest, h, hl, rfl⟩
        · exact .inr (.inr (by rw [decodeFrame_update, h]))
        · exact .inl ⟨_, rest, by rw [decodeFrame_update, h], by simpa [Instr.wf, payloadFits] using hl, rfl⟩
      · exact .inl ⟨_, r, decodeFrame_finalize r, rfl, rfl⟩
      · rcases decodePayload_cases .digest r with ⟨h, -⟩ | ⟨data, rest, h, hl, rfl⟩
        · exact .inr (.inr (by rw [decodeFrame_digest, h]))
        · exact .inl ⟨_, rest, by rw [decodeFrame_digest, h], by simpa [Instr.wf, payloadFits] using hl, rfl⟩
      · by_cases hv : variantPresent .v224 = true
        · exact .inl ⟨.init .v224, r, by rw [decodeFrame_init224, if_pos hv], hv, rfl⟩
        · exact .inr (.inl ⟨_, _, r, by rw [decodeFrame_init224, if_neg hv], rfl⟩)
    · obtain ⟨why, hw⟩ := decodeFrame_illegal b r h
      exact .inr (.inl ⟨why, b, r, hw, rfl⟩)

end Sys2Proof
end

