-- ==== Sys2Proof/Laws/Message.lean ====
section
/-! SUPPORT. Whole blocks, tails and chains of compressions (R26, R132), and what `UPDATE` and `FINALIZE` do to an ACTIVE
context in those terms. -/

namespace Sys2Proof.Machine

@[simp] theorem chain_nil (H : HashState) : chain H [] = H := rfl

theorem chain_cons (H : HashState) (b : List Byte) (bs : List (List Byte)) :
    chain H (b :: bs) = chain (compress H b) bs := rfl

theorem chain_append (H : HashState) (as bs : List (List Byte)) : chain H (as ++ bs) = chain (chain H as) bs := by
  simp [chain]

theorem length_wholeBlocks (q : Nat) (m : List Byte) : (wholeBlocks q m).length = q := by
  induction q generalizing m with
  | zero => rfl
  | succ q ih => simp [wholeBlocks, ih]

/-- The number of compressions a byte sequence asks for (R167). -/
theorem length_messageBlocks (m : List Byte) : (messageBlocks m).length = m.length / 64 := length_wholeBlocks _ _

/-- Every whole block has 64 bytes. -/
theorem length_of_mem_wholeBlocks {q : Nat} {m b : List Byte} (h : 64 * q ≤ m.length) (hb : b ∈ wholeBlocks q m) :
    b.length = 64 := by
  induction q generalizing m with
  | zero => simp [wholeBlocks] at hb
  | succ q ih =>
    rcases List.mem_cons.mp hb with rfl | hb
    · simp; omega
    · exact ih (by simp; omega) hb

/-- `k` 64-byte slices, then the slices of the rest. -/
theorem wholeBlocks_add (p q : Nat) (m : List Byte) :
    wholeBlocks (p + q) m = wholeBlocks p m ++ wholeBlocks q (m.drop (64 * p)) := by
  induction p generalizing m with
  | zero => simp [wholeBlocks]
  | succ p ih =>
    rw [Nat.succ_add, wholeBlocks, ih, wholeBlocks, List.cons_append, List.drop_drop]
    congr 4; omega

/-- The slices below position `64 q` depend on the bytes below it only. -/
theorem wholeBlocks_append_left (q : Nat) (m r : List Byte) (h : 64 * q ≤ m.length) :
    wholeBlocks q (m ++ r) = wholeBlocks q m := by
  induction q generalizing m with
  | zero => rfl
  | succ q ih =>
    rw [wholeBlocks, wholeBlocks, List.take_append_of_le_length (by omega), List.drop_append_of_le_length (by omega),
      ih _ (by simp; omega)]

@[simp] theorem length_messageTail (m : List Byte) : (messageTail m).length = m.length % 64 := by
  simp [messageTail]; omega

/-- A byte sequence is its first `64 q` bytes and the rest; the tail lies in the rest. -/
theorem messageTail_eq (m : List Byte) : m = m.take (64 * (m.length / 64)) ++ messageTail m :=
  (List.take_append_drop _ _).symm

/-- Appending to a message: its blocks stay, the blocks of its tail and the new bytes follow. -/
theorem messageBlocks_append (m r : List Byte) :
    messageBlocks (m ++ r) = messageBlocks m ++ messageBlocks (messageTail m ++ r) := by
  have hq : (m ++ r).length / 64 = m.length / 64 + (messageTail m ++ r).length / 64 := by simp; omega
  rw [messageBlocks, hq, wholeBlocks_add, wholeBlocks_append_left _ _ _ (by omega),
    List.drop_append_of_le_length (by omega)]
  rfl

theorem messageTail_append (m r : List Byte) : messageTail (m ++ r) = messageTail (messageTail m ++ r) := by
  have hq : 64 * ((m ++ r).length / 64) = 64 * (m.length / 64) + 64 * ((messageTail m ++ r).length / 64) := by simp; omega
  rw [messageTail, hq, ← List.drop_drop, List.drop_append_of_le_length (by omega)]
  rfl

/-- A sequence shorter than a block has no blocks and is its own tail. -/
theorem messageBlocks_short {m : List Byte} (h : m.length < 64) : messageBlocks m = [] := by
  rw [messageBlocks, Nat.div_eq_of_lt h]; rfl

theorem messageTail_short {m : List Byte} (h : m.length < 64) : messageTail m = m := by
  rw [messageTail, Nat.div_eq_of_lt h]; rfl

/-- One block in front. -/
theorem messageBlocks_block {b : List Byte} (hb : b.length = 64) (r : List Byte) :
    messageBlocks (b ++ r) = b :: messageBlocks r := by
  have h1 : messageTail b = [] := List.length_eq_zero_iff.mp (by simp [hb])
  have h2 : messageBlocks b = [b] := by
    rw [messageBlocks, hb]
    simp [wholeBlocks, List.take_of_length_le hb.le]
  rw [messageBlocks_append, h1, h2]; rfl

theorem messageTail_block {b : List Byte} (hb : b.length = 64) (r : List Byte) : messageTail (b ++ r) = messageTail r := by
  have h1 : messageTail b = [] := List.length_eq_zero_iff.mp (by simp [hb])
  rw [messageTail_append, h1]; rfl

/-- The block loop of `UPDATE` is the chain over the whole blocks of the input (R163). -/
theorem absorbBlocks_eq_chain (q : Nat) (H : HashState) (data : List Byte) :
    absorbBlocks q H data = chain H (wholeBlocks q data) := by
  induction q generalizing H data with
  | zero => rfl
  | succ q ih => rw [absorbBlocks, ih, wholeBlocks, chain_cons]

/-! `UPDATE` on an ACTIVE context. -/

/-- Whether step 1 fills the buffer, and what it then holds (R162). -/
theorem topUp_full (c : Context) (data : List Byte) (h0 : fillLevel c.total ≠ 0)
    (h : 64 ≤ fillLevel c.total + data.length) :
    (topUpBuffer c data).toList = liveBytes c ++ data.take (64 - fillLevel c.total) := by
  have hf := fillLevel_lt c.total
  have ht : topUpCount (fillLevel c.total) data.length = 64 - fillLevel c.total := by simp [topUpCount, h0]; omega
  simp only [topUpBuffer, ht]
  exact toList_bufWrite_full _ _ _ (by simp; omega)

/-- The remainder written at position 0 reads back (R164). -/
theorem bufRead_remainder (b : Buffer) (m : List Byte) :
    bufRead (bufWrite b 0 (messageTail m)) 0 (m.length % 64) = messageTail m := by
  have h := bufRead_bufWrite b 0 (messageTail m) (by simp; omega)
  rw [length_messageTail, Nat.zero_add] at h
  rw [h]; simp [bufRead]

/-- The hash state and the live bytes after `UPDATE` (R160, R26). -/
theorem updateActive_spec (data : List Byte) (c : Context) :
    (updateActive data c).1.H = chain c.H (messageBlocks (liveBytes c ++ data)) ∧
      liveBytes (updateActive data c).1 = messageTail (liveBytes c ++ data) := by
  have hf := fillLevel_lt c.total
  have hl := length_liveBytes c
  simp only [updateActive, liveBytes, absorbBlocks_eq_chain, fillLevel_addLength]
  change _ = chain c.H (messageBlocks (liveBytes c ++ data)) ∧ _ = messageTail (liveBytes c ++ data)
  rcases Nat.eq_zero_or_pos (fillLevel c.total) with h0 | h0
  · -- nothing buffered
    have hnil : liveBytes c = [] := List.length_eq_zero_iff.mp (by omega)
    simp only [topUpHash, topUpCount, h0, if_true, List.drop_zero, hnil, List.nil_append, Nat.zero_add,
      show ¬ (0 + 0 = 64) by decide, if_false]
    exact ⟨rfl, bufRead_remainder _ _⟩
  · rcases Nat.lt_or_ge (fillLevel c.total + data.length) 64 with hlt | hge
    · -- the buffer does not fill
      have ht : topUpCount (fillLevel c.total) data.length = data.length := by
        simp [topUpCount, show fillLevel c.total ≠ 0 by omega]; omega
      have hs : (liveBytes c ++ data).length < 64 := by simp [hl]; omega
      have hr := bufRead_bufWrite c.buffer (fillLevel c.total) data (by omega)
      rw [messageBlocks_short hs, messageTail_short hs]
      simp [topUpHash, ht, show fillLevel c.total + data.length ≠ 64 by omega, wholeBlocks,
        Nat.mod_eq_of_lt hlt, topUpBuffer, hr, liveBytes]
    · -- the buffer fills and is compressed
      have ht : topUpCount (fillLevel c.total) data.length = 64 - fillLevel c.total := by
        simp [topUpCount, show fillLevel c.total ≠ 0 by omega]; omega
      have hb : (liveBytes c ++ data.take (64 - fillLevel c.total)).length = 64 := by simp [hl]; omega
      have hsplit : liveBytes c ++ data =
          (liveBytes c ++ data.take (64 - fillLevel c.total)) ++ data.drop (64 - fillLevel c.total) := by
        rw [List.append_assoc, List.take_append_drop]
      rw [hsplit, messageBlocks_block hb, messageTail_block hb, chain_cons]
      have hmod : (fillLevel c.total + data.length) % 64 = (data.drop (64 - fillLevel c.total)).length % 64 := by simp; omega
      simp only [topUpHash, ht, show fillLevel c.total + (64 - fillLevel c.total) = 64 by omega, if_true, bufRead_all,
        topUp_full c data (by omega) hge, hmod]
      exact ⟨rfl, bufRead_remainder _ _⟩

/-- The other fields after `UPDATE`: the counter moves, `dlen` and `phase` stay (R160, R161). -/
theorem updateActive_frame (data : List Byte) (c : Context) :
    (updateActive data c).1.total = addLength c.total data.length ∧ (updateActive data c).1.dlen = c.dlen ∧
      (updateActive data c).1.phase = c.phase ∧ (updateActive data c).2 = ⟨.ok, []⟩ :=
  ⟨rfl, rfl, rfl, rfl⟩

/-! `FINALIZE` on an ACTIVE context. -/

/-- One final block: message tail, marker, zeros, length (R172 to R174). -/
theorem finalBuffer_one (c : Context) (h : fillLevel c.total ≤ 55) :
    (finalBuffer c).toList =
      liveBytes c ++ [0x80] ++ zeros (55 - fillLevel c.total) ++ bytes64 (bitLength c.total) := by
  have hn : needsSecondBlock (fillLevel c.total) = false := by simp [needsSecondBlock]; omega
  have e1 := bufWrite_bufWrite [0x80] (zeros (56 - (fillLevel c.total + 1))) c.buffer (fillLevel c.total)
  have e2 := bufWrite_bufWrite ([0x80] ++ zeros (56 - (fillLevel c.total + 1))) (bytes64 (bitLength c.total)) c.buffer
    (fillLevel c.total)
  have e3 : fillLevel c.total + ([0x80] ++ zeros (56 - (fillLevel c.total + 1))).length = 56 := by simp; omega
  rw [e3] at e2
  simp only [List.length_singleton] at e1
  simp only [finalBuffer, lastBlockBuffer, hn, markBuffer, Bool.false_eq_true, if_false]
  rw [e1, e2, toList_bufWrite_full _ _ _ (by simp; omega), liveBytes]
  simp only [List.append_assoc]
  congr 4; omega

/-- The first of two final blocks: message tail, marker, zeros (R172, R173). -/
theorem firstFinalBuffer_eq (c : Context) :
    (firstFinalBuffer c).toList = liveBytes c ++ [0x80] ++ zeros (63 - fillLevel c.total) := by
  have hf := fillLevel_lt c.total
  have e1 := bufWrite_bufWrite [0x80] (zeros (64 - (fillLevel c.total + 1))) c.buffer (fillLevel c.total)
  simp only [List.length_singleton] at e1
  simp only [firstFinalBuffer, markBuffer]
  rw [e1, toList_bufWrite_full _ _ _ (by simp; omega), liveBytes]
  simp only [List.append_assoc]
  congr 3; omega

/-- The second of two final blocks: zeros, length (R173, R174). -/
theorem finalBuffer_two (c : Context) (h : 56 ≤ fillLevel c.total) :
    (finalBuffer c).toList = zeros 56 ++ bytes64 (bitLength c.total) := by
  have hn : needsSecondBlock (fillLevel c.total) = true := by simp [needsSecondBlock]; omega
  have e2 := bufWrite_bufWrite (zeros 56) (bytes64 (bitLength c.total)) (firstFinalBuffer c) 0
  have e3 : 0 + (zeros 56).length = 56 := by simp
  rw [e3] at e2
  simp only [finalBuffer, lastBlockBuffer, hn, if_true]
  rw [e2, toList_bufWrite_full _ _ _ (by simp)]
  simp [bufRead]

theorem finalHash_one (c : Context) (h : fillLevel c.total ≤ 55) :
    finalHash c = compress c.H
      (liveBytes c ++ [0x80] ++ zeros (55 - fillLevel c.total) ++ bytes64 (bitLength c.total)) := by
  have hn : needsSecondBlock (fillLevel c.total) = false := by simp [needsSecondBlock]; omega
  rw [finalHash, bufRead_all, finalBuffer_one c h, lastBlockHash, hn]; rfl

theorem finalHash_two (c : Context) (h : 56 ≤ fillLevel c.total) :
    finalHash c = compress (compress c.H (liveBytes c ++ [0x80] ++ zeros (63 - fillLevel c.total)))
      (zeros 56 ++ bytes64 (bitLength c.total)) := by
  have hn : needsSecondBlock (fillLevel c.total) = true := by simp [needsSecondBlock]; omega
  rw [finalHash, bufRead_all, finalBuffer_two c h, lastBlockHash, hn, if_pos rfl, bufRead_all, firstFinalBuffer_eq]

/-! The context as the message it holds. -/

/-- `INIT` opens the empty message (R150). -/
theorem represents_performInit {v : Variant} {iv : HashState} (h : initialHash v = some iv) (c : Context) :
    Represents (performInit v c).1 v [] := by
  simp only [performInit, h]
  exact ⟨rfl, rfl, rfl, ⟨iv, h, rfl⟩, rfl⟩

/-- `UPDATE` appends to the open message (R160, R26). -/
theorem represents_updateActive {c : Context} {v : Variant} {m : List Byte} (h : Represents c v m) (data : List Byte) :
    Represents (updateActive data c).1 v (m ++ data) := by
  obtain ⟨hp, hd, ht, ⟨iv, hiv, hH⟩, hl⟩ := h
  obtain ⟨h1, h2⟩ := updateActive_spec data c
  refine ⟨hp, hd, ?_, ⟨iv, hiv, ?_⟩, ?_⟩
  · simp [updateActive, ht, addLength, BitVec.ofNat_add]
  · rw [h1, hH, hl, messageBlocks_append m data, chain_append]
  · rw [h2, hl, messageTail_append m data]

/-- The number of zeros in the padding, by the fill level (R179, R173). -/
theorem padZeros_eq (n : Nat) :
    (((55 : Int) - n) % 64).toNat = if n % 64 ≤ 55 then 55 - n % 64 else 119 - n % 64 := by
  split <;> omega

/-- What `FINALIZE` compresses on top of `H` is the padding of the message (R170 to R175, R179). -/
theorem finalHash_eq_messageHash {c : Context} {v : Variant} {m : List Byte} {iv : HashState} (h : Represents c v m)
    (hiv : initialHash v = some iv) : finalHash c = messageHash iv m := by
  obtain ⟨-, -, ht, ⟨iv', hiv', hH⟩, hl⟩ := h
  obtain rfl : iv' = iv := Option.some.inj (hiv'.symm.trans hiv)
  have hf : fillLevel c.total = m.length % 64 := by rw [ht, fillLevel_ofNat]
  have hL : bitLength c.total = BitVec.ofNat 64 (8 * m.length) := by rw [ht, bitLength_ofNat]
  have htail : (messageTail m).length = m.length % 64 := length_messageTail m
  rw [messageHash, pad, padZeros_eq, List.append_assoc, List.append_assoc, messageBlocks_append, chain_append, ← hH, ← hl, ← hL]
  rw [← hl] at htail
  rcases Nat.lt_or_ge (m.length % 64) 56 with h55 | h56
  · rw [finalHash_one c (by omega), if_pos (by omega), hf]
    have hb : (liveBytes c ++ ([0x80] ++ (zeros (55 - m.length % 64) ++ bytes64 (bitLength c.total)))).length = 64 := by
      simp; omega
    have := messageBlocks_block hb []
    rw [List.append_nil] at this
    rw [this, messageBlocks_short (by simp), chain_cons, chain_nil]
    simp only [List.append_assoc]
  · rw [finalHash_two c (by omega), if_neg (by omega), hf]
    have hz : zeros (119 - m.length % 64) = zeros (63 - m.length % 64) ++ zeros 56 := by
      simp only [zeros, List.replicate_append_replicate]; congr 1; omega
    have hb1 : (liveBytes c ++ [0x80] ++ zeros (63 - m.length % 64)).length = 64 := by simp; omega
    have hb2 : (zeros 56 ++ bytes64 (bitLength c.total)).length = 64 := by simp
    have h1 := messageBlocks_block hb1 (zeros 56 ++ bytes64 (bitLength c.total))
    have h2 := messageBlocks_block hb2 []
    rw [List.append_nil] at h2
    rw [hz, ← List.append_assoc, ← List.append_assoc, ← List.append_assoc, List.append_assoc _ (zeros 56), h1, h2,
      messageBlocks_short (by simp), chain_cons, chain_cons, chain_nil]

end Sys2Proof.Machine
end

