-- ==== Sys2Proof/Laws/State.lean ====
section
/-! SUPPORT. One lemma per field per update of the state. -/

namespace Sys2Proof.Machine

@[simp] theorem State.complete_ctx (s : State) (r : Context × Response) : (s.complete r).ctx = r.1 := rfl
@[simp] theorem State.complete_cmdIn (s : State) (r : Context × Response) : (s.complete r).cmdIn = s.cmdIn := rfl
@[simp] theorem State.complete_rspOut (s : State) (r : Context × Response) :
    (s.complete r).rspOut = s.rspOut ++ r.2.frame := rfl
@[simp] theorem State.complete_resetIn (s : State) (r : Context × Response) : (s.complete r).resetIn = s.resetIn := rfl
@[simp] theorem State.complete_freeCount (s : State) (r : Context × Response) :
    (s.complete r).freeCount = s.freeCount := rfl

@[simp] theorem takeReset_phase (s : State) : (takeReset s).ctx.phase = .uninit := rfl
@[simp] theorem takeReset_cmdIn (s : State) : (takeReset s).cmdIn = [] := rfl
@[simp] theorem takeReset_rspOut (s : State) : (takeReset s).rspOut = [] := rfl
@[simp] theorem takeReset_resetIn (s : State) : (takeReset s).resetIn = false := rfl
@[simp] theorem takeReset_freeCount (s : State) : (takeReset s).freeCount = s.freeCount + 1 := rfl

@[simp] theorem State.hostWrite_ctx (s : State) (bs : List Byte) : (s.hostWrite bs).ctx = s.ctx := rfl
@[simp] theorem State.hostWrite_cmdIn (s : State) (bs : List Byte) : (s.hostWrite bs).cmdIn = s.cmdIn ++ bs := rfl
@[simp] theorem State.hostWrite_rspOut (s : State) (bs : List Byte) : (s.hostWrite bs).rspOut = s.rspOut := rfl
@[simp] theorem State.hostWrite_resetIn (s : State) (bs : List Byte) : (s.hostWrite bs).resetIn = s.resetIn := rfl
@[simp] theorem State.hostWrite_freeCount (s : State) (bs : List Byte) : (s.hostWrite bs).freeCount = s.freeCount := rfl

@[simp] theorem State.hostTake_bytes (s : State) (n : Nat) : (s.hostTake n).1 = s.rspOut.take n := rfl
@[simp] theorem State.hostTake_ctx (s : State) (n : Nat) : (s.hostTake n).2.ctx = s.ctx := rfl
@[simp] theorem State.hostTake_cmdIn (s : State) (n : Nat) : (s.hostTake n).2.cmdIn = s.cmdIn := rfl
@[simp] theorem State.hostTake_rspOut (s : State) (n : Nat) : (s.hostTake n).2.rspOut = s.rspOut.drop n := rfl
@[simp] theorem State.hostTake_resetIn (s : State) (n : Nat) : (s.hostTake n).2.resetIn = s.resetIn := rfl
@[simp] theorem State.hostTake_freeCount (s : State) (n : Nat) : (s.hostTake n).2.freeCount = s.freeCount := rfl

@[simp] theorem State.hostReset_ctx (s : State) : s.hostReset.ctx = s.ctx := rfl
@[simp] theorem State.hostReset_cmdIn (s : State) : s.hostReset.cmdIn = s.cmdIn := rfl
@[simp] theorem State.hostReset_rspOut (s : State) : s.hostReset.rspOut = s.rspOut := rfl
@[simp] theorem State.hostReset_resetIn (s : State) : s.hostReset.resetIn = true := rfl
@[simp] theorem State.hostReset_freeCount (s : State) : s.hostReset.freeCount = s.freeCount := rfl

@[simp] theorem State.withFetchWord_ctx (s : State) (n w : Nat) : (s.withFetchWord n w).ctx = s.ctx := rfl
@[simp] theorem State.withFetchWord_cmdIn (s : State) (n w : Nat) :
    (s.withFetchWord n w).cmdIn = tableFrame n w ++ s.cmdIn := rfl
@[simp] theorem State.withFetchWord_rspOut (s : State) (n w : Nat) : (s.withFetchWord n w).rspOut = s.rspOut := rfl
@[simp] theorem State.withFetchWord_resetIn (s : State) (n w : Nat) : (s.withFetchWord n w).resetIn = false := rfl
@[simp] theorem State.withFetchWord_freeCount (s : State) (n w : Nat) : (s.withFetchWord n w).freeCount = s.freeCount := rfl

@[simp] theorem raiseError_ctx (e : Status) (c : Context) : (raiseError e c).1 = c := rfl
@[simp] theorem raiseError_response (e : Status) (c : Context) : (raiseError e c).2 = ⟨e, []⟩ := rfl

@[simp] theorem State.reset_phase : State.reset.ctx.phase = .uninit := rfl
@[simp] theorem State.reset_cmdIn : State.reset.cmdIn = [] := rfl
@[simp] theorem State.reset_rspOut : State.reset.rspOut = [] := rfl
@[simp] theorem State.reset_resetIn : State.reset.resetIn = false := rfl

end Sys2Proof.Machine
end

