-- ==== Sys2Proof/Laws/Ops.lean ====
section
/-! SUPPORT. What each shared operation and the step can do, said once. -/

namespace Sys2Proof.Machine

/-- The phase check has three outcomes (R160, R170, R208). -/
theorem whenActive_cases (c : Context) (act : Context → Context × Response) :
    (c.phase = .uninit ∧ whenActive c act = (c, ⟨.notInitialized, []⟩)) ∨
      (c.phase = .active ∧ whenActive c act = act c) ∨
      (c.phase = .spent ∧ whenActive c act = (c, ⟨.alreadyFinalized, []⟩)) := by
  cases h : c.phase <;> simp [whenActive, h, phaseError, raiseError]

theorem whenActive_active {c : Context} (h : c.phase = .active) (act : Context → Context × Response) :
    whenActive c act = act c := by simp [whenActive, h, phaseError]

/-- Every meaning completes, with the abstract command's effect on the context (R87, R71). -/
theorem exec_eq_complete (i : Instr) (s : State) : exec i s = .next (s.complete (perform i s.ctx)) := by
  cases i <;> rfl

/-- `INIT` of a variant the engine has (R150). -/
theorem performInit_present {v : Variant} {iv : HashState} (h : initialHash v = some iv) (c : Context) :
    performInit v c = ({ c with total := 0, dlen := digestLengthOf v, H := iv, phase := .active }, ⟨.ok, []⟩) := by
  simp [performInit, h]

/-- `INIT` of a variant the engine lacks (R80). -/
theorem performInit_absent {v : Variant} (h : initialHash v = none) (c : Context) :
    performInit v c = (c, ⟨.illegalCommand, []⟩) := by
  simp [performInit, h, performIllegal, raiseError]

/-- After `INIT(V256)` and `UPDATE(msg)` the context is ACTIVE and holds `msg` (R190, R192). -/
theorem digestMiddle_represents (msg : List Byte) (c : Context) :
    Represents (performUpdate msg (performInit .v256 c).1).1 .v256 msg := by
  have h0 := represents_performInit (v := .v256) rfl c
  have h1 := represents_updateActive h0 msg
  rwa [performUpdate, whenActive_active h0.phase]

/-- `DIGEST` in every phase (R190 to R192). -/
theorem performDigest_eq (msg : List Byte) (c : Context) :
    performDigest msg c = finalizeActive (performUpdate msg (performInit .v256 c).1).1 := by
  rw [performDigest, performFinalize, whenActive_active (digestMiddle_represents msg c).phase]

/-- One step: a RESET is taken, a command is performed, an illegal byte is answered, or the engine waits. -/
theorem step_cases (s : State) :
    (s.resetIn = true ∧ step s = .next (takeReset s)) ∨
      (s.resetIn = false ∧ ∃ i rest, decodeFrame s.cmdIn = .command i rest ∧ i.wf = true ∧ s.cmdIn = encode i ++ rest ∧
        step s = .next (State.complete { s with cmdIn := rest } (perform i s.ctx))) ∨
      (s.resetIn = false ∧ ∃ why b rest, decodeFrame s.cmdIn = .illegal why rest ∧ s.cmdIn = b :: rest ∧
        step s = .next (State.complete { s with cmdIn := rest } (performIllegal s.ctx))) ∨
      (s.resetIn = false ∧ decodeFrame s.cmdIn = .incomplete ∧ step s = .next s) := by
  cases hr : s.resetIn
  · rcases decodeFrame_cases s.cmdIn with ⟨i, rest, h, hwf, hs⟩ | ⟨why, b, rest, h, hs⟩ | h
    · exact .inr (.inl ⟨rfl, i, rest, h, hwf, hs, by simp [step, hr, h, exec_eq_complete]⟩)
    · exact .inr (.inr (.inl ⟨rfl, why, b, rest, h, hs, by simp [step, hr, h]⟩))
    · exact .inr (.inr (.inr ⟨rfl, h, by simp [step, hr, h]⟩))
  · exact .inl ⟨rfl, by simp [step, hr]⟩

/-- `runSteps` is the host's run of the machine. -/
theorem runSteps_eq_core_run (k : Nat) (s : State) : runSteps k s = Sys2Proof.core.run k s := by
  induction k generalizing s with
  | zero => rfl
  | succ k ih =>
    simp only [runSteps, Host.Core.run, core]
    cases step s with
    | next t => exact ih t
    | fault r => rfl
    | refused r => rfl

theorem runSteps_succ (k : Nat) {s t : State} (h : step s = .next t) : runSteps (k + 1) s = runSteps k t := by
  simp [runSteps, h]

/-- The invariant is kept by every command. -/
theorem perform_keeps_message (i : Instr) (c : Context)
    (h : c.phase = .active → ∃ v m, Represents c v m) :
    (perform i c).1.phase = .active → ∃ v m, Represents (perform i c).1 v m := by
  cases i with
  | init v =>
    intro _
    cases hv : initialHash v with
    | none => simp_all [perform, performInit_absent hv]
    | some iv => exact ⟨v, [], represents_performInit hv c⟩
  | update data =>
    rcases whenActive_cases c (updateActive data) with ⟨hp, he⟩ | ⟨hp, he⟩ | ⟨hp, he⟩ <;>
      simp only [perform, performUpdate, he]
    · exact h
    · obtain ⟨v, m, hm⟩ := h hp
      exact fun _ => ⟨v, _, represents_updateActive hm data⟩
    · exact h
  | finalize =>
    rcases whenActive_cases c finalizeActive with ⟨hp, he⟩ | ⟨hp, he⟩ | ⟨hp, he⟩ <;>
      simp only [perform, performFinalize, he]
    · exact h
    · simp [finalizeActive]
    · exact h
  | digest msg => simp [perform, performDigest_eq, finalizeActive]

end Sys2Proof.Machine
end

