-- ==== Sys2Proof/Laws/Agree.lean ====
section
/-! SUPPORT. Commands on contexts that agree (R36, R38, R180), and the byte-at-a-time form of `UPDATE` (R168). -/

namespace Sys2Proof.Machine

/-- A variant the engine has is one with an initial hash value (R74, R152). -/
theorem initialHash_of_present {v : Variant} (h : variantPresent v = true) : ∃ iv, initialHash v = some iv := by
  cases v with
  | v256 => exact ⟨_, rfl⟩
  | v224 => exact Option.isSome_iff_exists.1 h

/-- An `UPDATE` of one byte is `FeedByte`, on the context (R168). -/
theorem updateActive_singleton (c : Context) (b : Byte) : (updateActive [b] c).1 = feedByte c b := by
  have hf := fillLevel_lt c.total
  by_cases h0 : fillLevel c.total = 0
  · simp [updateActive, feedByte, topUpCount, h0, topUpHash, topUpBuffer, absorbBlocks]
  · have h1 : topUpCount (fillLevel c.total) 1 = 1 := by simp [topUpCount, h0]; omega
    have h2 : (fillLevel c.total + 1 = 64) = (fillLevel c.total = 63) := by simp
    simp [updateActive, feedByte, h1, topUpHash, topUpBuffer, absorbBlocks, h2]

/-- `FINALIZE` reads `H`, `total` and the live bytes, and nothing else of the context (R36, R171). -/
theorem finalHash_congr {c₁ c₂ : Context} (hH : c₁.H = c₂.H) (ht : c₁.total = c₂.total) (hl : liveBytes c₁ = liveBytes c₂) :
    finalHash c₁ = finalHash c₂ := by
  by_cases h : fillLevel c₁.total ≤ 55
  · rw [finalHash_one c₁ h, finalHash_one c₂ (by rwa [← ht]), hH, ht, hl]
  · have h' : 56 ≤ fillLevel c₁.total := by omega
    rw [finalHash_two c₁ h', finalHash_two c₂ (by rwa [← ht]), hH, ht, hl]

theorem performInit_agree {v : Variant} {iv : HashState} (h : initialHash v = some iv) (c₁ c₂ : Context) :
    (performInit v c₁).1.Agree (performInit v c₂).1 ∧ (performInit v c₁).2 = (performInit v c₂).2 := by
  simp only [performInit_present h]
  exact ⟨⟨rfl, fun _ => ⟨rfl, rfl, rfl, rfl⟩⟩, trivial⟩

theorem performUpdate_agree (data : List Byte) {c₁ c₂ : Context} (h : c₁.Agree c₂) :
    (performUpdate data c₁).1.Agree (performUpdate data c₂).1 ∧ (performUpdate data c₁).2 = (performUpdate data c₂).2 := by
  obtain ⟨hp, ha⟩ := h
  rcases whenActive_cases c₁ (updateActive data) with ⟨h1, e1⟩ | ⟨h1, e1⟩ | ⟨h1, e1⟩ <;>
    rcases whenActive_cases c₂ (updateActive data) with ⟨h2, e2⟩ | ⟨h2, e2⟩ | ⟨h2, e2⟩ <;>
    rw [h1, h2] at hp <;> cases hp <;> simp only [performUpdate, e1, e2, and_true]
  · exact ⟨h1.trans h2.symm, ha⟩
  · obtain ⟨a1, a2, a3, a4⟩ := ha h1
    obtain ⟨u1, u2⟩ := updateActive_spec data c₁
    obtain ⟨v1, v2⟩ := updateActive_spec data c₂
    refine ⟨⟨h1.trans h2.symm, fun _ => ⟨?_, congrArg (addLength · data.length) a2, a3, ?_⟩⟩, rfl⟩
    · rw [u1, v1, a1, a4]
    · rw [u2, v2, a4]
  · exact ⟨h1.trans h2.symm, ha⟩

theorem finalizeActive_agree {c₁ c₂ : Context} (h1 : c₁.phase = .active) (h : c₁.Agree c₂) :
    (finalizeActive c₁).1.Agree (finalizeActive c₂).1 ∧ (finalizeActive c₁).2 = (finalizeActive c₂).2 := by
  obtain ⟨a1, a2, a3, a4⟩ := h.2 h1
  simp only [finalizeActive, finalHash_congr a1 a2 a4, a3]
  exact ⟨⟨rfl, fun h => by cases h⟩, trivial⟩

end Sys2Proof.Machine
end

