-- ==== Sys2Proof/Laws/Compress.lean ====
section
/-! SUPPORT. The message schedule word by word, the rolling window, and the conversions of words (R52, R53, R121 to R123). -/

namespace Sys2Proof.Machine

@[simp] theorem length_firstWords (blk : List Byte) : (firstWords blk).length = 16 := by simp [firstWords]

/-- Extending a schedule by `n` words makes it `n` words longer. -/
theorem length_extendSchedule (n) : ∀ ws, (extendSchedule n ws).length = ws.length + n := by
  induction n with
  | zero => intro ws; rfl
  | succ n ih => intro ws; rw [extendSchedule, ih]; simp; omega

/-- The words already there stay. -/
theorem extendSchedule_old (n) : ∀ ws t, t < ws.length → (extendSchedule n ws).getD t 0 = ws.getD t 0 := by
  induction n with
  | zero => intro ws t _; rfl
  | succ n ih =>
    intro ws t h
    rw [extendSchedule, ih _ _ (by simp; omega), List.getD_append _ _ _ _ h]

/-- Each new word follows the recurrence over the extended schedule (R122). -/
theorem extendSchedule_new (n) : ∀ ws t, 16 ≤ ws.length → ws.length ≤ t → t < ws.length + n →
    let S := fun t => (extendSchedule n ws).getD t 0
    S t = smallSigma1 (S (t - 2)) + S (t - 7) + smallSigma0 (S (t - 15)) + S (t - 16) := by
  induction n with
  | zero => intro ws t _ _ _; omega
  | succ n ih =>
    intro ws t h16 h1 h2
    rcases Nat.eq_or_lt_of_le h1 with rfl | h3
    · simp only
      rw [extendSchedule_old _ _ (ws.length - 2) (by omega), extendSchedule_old _ _ (ws.length - 7) (by omega), extendSchedule_old _ _ (ws.length - 15) (by omega), extendSchedule_old _ _ (ws.length - 16) (by omega)]
      rw [extendSchedule, extendSchedule_old _ _ _ (by simp), List.getD_append_right _ _ _ _ (by simp)]
      simp [nextScheduleWord]
    · rw [extendSchedule]; exact ih _ t (by simp; omega) (by simp; omega) (by simp; omega)

theorem length_schedule (blk : List Byte) : (schedule blk).length = 64 := by
  rw [schedule, length_extendSchedule, length_firstWords]

/-- For `t < 16` the window is the block's words, unchanged (R123). -/
theorem rollingWindow_start (blk : List Byte) (t : Nat) (h : t < 16) : rollingWindow blk t = rollingStart blk := by
  induction t with
  | zero => rfl
  | succ t ih => rw [rollingWindow, if_pos h, ih (by omega)]

theorem length_serialize (h : HashState) : (serialize h).length = 32 := by
  rw [serialize, List.length_flatMap]; simp

/-- Which byte a bit of a big-endian word comes from (R52). -/
theorem getLsbD_be32 (b0 b1 b2 b3 : Byte) (i : Nat) (hi : i < 32) : (be32 b0 b1 b2 b3).getLsbD i =
    if i < 8 then b3.getLsbD i
    else if i < 16 then b2.getLsbD (i - 8)
    else if i < 24 then b1.getLsbD (i - 16) else b0.getLsbD (i - 24) := by
  change BitVec.getLsbD (b0 ++ b1 ++ b2 ++ b3) i = _
  simp only [BitVec.getLsbD_append]
  split_ifs <;> first | rfl | omega

/-- A bit of a logical shift right; zeros enter at bit 31 (R103). -/
theorem getLsbD_shr (x : Word) (n i : Nat) : (shr x n).getLsbD i = if i + n < 32 then x.getLsbD (i + n) else false := by
  simp only [shr, BitVec.getLsbD_ushiftRight, Nat.add_comm n]
  split
  · rfl
  · exact BitVec.getLsbD_of_ge _ _ (by omega)

end Sys2Proof.Machine
end

