-- ==== Sys2Proof/Laws/PerInstr.lean ====
section
/-! SUPPORT. Facts about every command as syntax, one lemma per constructor. -/

namespace Sys2Proof.Laws.EncodeMatchesTable

/-- The `mask` of the command's row in the opcode table. -/
def mask : Instr → Byte
  | .init _ => 0xfb
  | .update _ => 0xff
  | .finalize => 0xff
  | .digest _ => 0xff

/-- The `match` of the command's row in the opcode table. -/
def pattern : Instr → Byte
  | .init _ => 0x00
  | .update _ => 0x01
  | .finalize => 0x02
  | .digest _ => 0x03

/-- The `length_bytes` of the command's row: 1, or `9 + LEN` (R72). -/
def frameLength : Instr → Nat
  | .init _ => 1
  | .update data => 9 + data.length
  | .finalize => 1
  | .digest msg => 9 + msg.length

/-- The frame of the command begins with a byte of the command's row of the opcode table, and is as long as the row says. -/
def Statement (i : Instr) : Prop :=
  ∃ b rest, encode i = b :: rest ∧ b &&& mask i = pattern i ∧ (encode i).length = frameLength i

theorem init (v : Variant) : Statement (.init v) := by
  cases v
  · exact ⟨0x00, [], rfl, by decide, rfl⟩
  · exact ⟨0x04, [], rfl, by decide, rfl⟩

theorem update (data : List Byte) : Statement (.update data) :=
  ⟨0x01, _, rfl, by simp [mask, pattern], by simp [encode, encodePayload, frameLength]; omega⟩

theorem finalize : Statement .finalize := ⟨0x02, [], rfl, by decide, rfl⟩

theorem digest (msg : List Byte) : Statement (.digest msg) :=
  ⟨0x03, _, rfl, by simp [mask, pattern], by simp [encode, encodePayload, frameLength]; omega⟩

end Sys2Proof.Laws.EncodeMatchesTable
end

