-- ==== Sys2Proof/Laws/Primes.lean ====
section
/-! SUPPORT. The first 64 primes, by trial division below 312: what the statements about the constant tables need of number
theory (R127, R151). -/

namespace Sys2Proof.Laws

def primes64 : List Nat :=
  [2, 3, 5, 7, 11, 13, 17, 19, 23, 29, 31, 37, 41, 43, 47, 53] ++
  [59, 61, 67, 71, 73, 79, 83, 89, 97, 101, 103, 107, 109, 113, 127, 131] ++
  [137, 139, 149, 151, 157, 163, 167, 173, 179, 181, 191, 193, 197, 199, 211, 223] ++
  [227, 229, 233, 239, 241, 251, 257, 263, 269, 271, 277, 281, 283, 293, 307, 311]

theorem prime_iff_mem_primes64 : ∀ n, n < 312 → (Nat.Prime n ↔ n ∈ primes64) := by
  intro n hn
  have : ∀ n, n < 312 → (decide (2 ≤ n) && (List.range 18).all (fun d => d < 2 || n ≤ d || n % d != 0)) = decide (n ∈ primes64) := by decide +kernel
  have h := this n hn
  constructor
  · intro hp
    have : (decide (2 ≤ n) && (List.range 18).all (fun d => d < 2 || n ≤ d || n % d != 0)) = true := by
      simp only [Bool.and_eq_true, decide_eq_true_eq, List.all_eq_true]
      refine ⟨hp.two_le, ?_⟩
      intro d hd
      by_contra hc
      simp at hc
      rcases (Nat.dvd_prime hp).1 (Nat.dvd_of_mod_eq_zero hc.2) with h' | h' <;> omega
    rw [this] at h
    simpa using h.symm
  · intro hm
    rw [show decide (n ∈ primes64) = true by simpa using hm] at h
    simp only [Bool.and_eq_true, decide_eq_true_eq, List.all_eq_true] at h
    rw [Nat.prime_def_le_sqrt]
    refine ⟨h.1, ?_⟩
    intro m hm2 hms hd
    have hlt : m < 18 := by
      have : Nat.sqrt n ≤ 17 := by
        have := Nat.sqrt_le_sqrt (show n ≤ 312 by omega)
        have h2 : Nat.sqrt 312 = 17 := by decide +kernel
        omega
      omega
    have hmn : m < n := by
      have := Nat.sqrt_lt_self (show 1 < n by omega)
      omega
    have := h.2 m (by simp; omega)
    simp at this
    have := Nat.mod_eq_zero_of_dvd hd
    omega

theorem count_prime_of_le : ∀ k, k ≤ 312 → Nat.count Nat.Prime k = ((List.range k).filter (· ∈ primes64)).length := by
  intro k hk
  induction k with
  | zero => simp
  | succ k ih =>
    rw [Nat.count_succ, ih (by omega), List.range_succ, List.filter_append, List.length_append]
    congr 1
    by_cases h : Nat.Prime k
    · have h2 := (prime_iff_mem_primes64 k (by omega)).1 h
      simp [h, h2]
    · have h2 : k ∉ primes64 := fun h' => h ((prime_iff_mem_primes64 k (by omega)).2 h')
      simp [h, h2]

theorem nth_prime : ∀ t, t < 64 → Nat.nth Nat.Prime t = primes64.getD t 0 := by
  intro t ht
  have h : ∀ t, t < 64 → ((List.range (primes64.getD t 0)).filter (· ∈ primes64)).length = t ∧ primes64.getD t 0 < 312 ∧ primes64.getD t 0 ∈ primes64 := by decide +kernel
  obtain ⟨h1, h2, h3⟩ := h t ht
  have h4 := count_prime_of_le (primes64.getD t 0) (by omega)
  rw [h1] at h4
  have := Nat.nth_count ((prime_iff_mem_primes64 _ h2).2 h3)
  rwa [h4] at this

end Sys2Proof.Laws
end

