-- ==== Sys2Proof/Tests/Slice0.lean ====
section
/-! SUPPORT. Tests. Expected values are those of `95_test_vectors.md` or are counted by hand from the rules; each docstring
says which. The witnesses show that the hypotheses of the statements can be met. -/

namespace Sys2Proof.Machine.Tests

/-! ## Helpers -/

/-- The reset state with another phase, counter and input. -/
def stateWith (phase : Phase) (total : Dword) (cmdIn : List Byte) : State :=
  { State.reset with ctx := { State.reset.ctx with phase := phase, total := total }, cmdIn := cmdIn }

/-- The state right after `INIT(V256)` from reset. -/
def opened : State := State.reset.complete (performInit .v256 State.reset.ctx)

/-- The state an outcome goes on with. -/
def after : Host.Outcome State Fault Refusal → State
  | .next t => t
  | .fault _ => State.reset
  | .refused _ => State.reset

/-- What `RSP_OUT` holds after one command from a state. -/
def answer (i : Instr) (s : State) : List Byte := (after (exec i s)).rspOut

/-! ## Well-formedness refuses -/

/-- A payload of 2^64 bytes has no `LEN` (R78). -/
theorem test_wf_refuses_long_update : (Instr.update (List.replicate (2 ^ 64) 0)).wf = false := by
  simp only [Instr.wf, payloadFits, List.length_replicate]; decide

/-- A message of 2^64 bytes has no `LEN` (R78). -/
theorem test_wf_refuses_long_digest : (Instr.digest (List.replicate (2 ^ 64) 0)).wf = false := by
  simp only [Instr.wf, payloadFits, List.length_replicate]; decide

/-- Without `IV224` there is no variant 224 (R152). -/
theorem test_wf_refuses_absent_variant (h : Config.iv224 = none) : (Instr.init .v224).wf = false := by
  simp [Instr.wf, variantPresent, h]

theorem test_wf_accepts : (Instr.init .v256).wf = true ∧ (Instr.update [0x61]).wf = true ∧ Instr.finalize.wf = true ∧
    (Instr.digest []).wf = true := by decide

/-! ## Decoding (frames of `95_test_vectors.md` sections 7 and 8) -/

theorem test_decode_init256 : decodeFrame [0x00] = .command (.init .v256) [] := by decide

/-- 0x04 is `INIT(V224)` with the parameter present, illegal without it (R74, R80). -/
theorem test_decode_init224 : (∀ iv, Config.iv224 = some iv → decodeFrame [0x04] = .command (.init .v224) []) ∧
    (Config.iv224 = none → decodeFrame [0x04] = .illegal .iv224Absent []) := by
  constructor
  · intro iv h; exact (decodeFrame_init224 []).trans (if_pos (by simp [variantPresent, h]))
  · intro h; exact (decodeFrame_init224 []).trans (if_neg (by simp [variantPresent, h]))

theorem test_decode_update_abc :
    decodeFrame [0x01, 0, 0, 0, 0, 0, 0, 0, 3, 0x61, 0x62, 0x63] = .command (.update [0x61, 0x62, 0x63]) [] := by decide

/-- `LEN` is most significant byte first: 0x0100 is 256 (R78). -/
theorem test_decode_length_byte_order : decodeFrame (0x03 :: [0, 0, 0, 0, 0, 0, 1, 0] ++ List.replicate 257 0x07) =
    .command (.digest (List.replicate 256 0x07)) [0x07] := by decide +kernel

theorem test_decode_payload_not_decoded :
    decodeFrame [0x01, 0, 0, 0, 0, 0, 0, 0, 2, 0x02, 0x03] = .command (.update [0x02, 0x03]) [] := by decide

theorem test_decode_finalize : decodeFrame [0x02] = .command .finalize [] := by decide

theorem test_decode_digest_empty : decodeFrame [0x03, 0, 0, 0, 0, 0, 0, 0, 0] = .command (.digest []) [] := by decide

theorem test_decode_illegal : decodeFrame [0x05, 0x00] = .illegal .variantOnNonInit [0x00] ∧
    decodeFrame [0x07] = .illegal .variantOnNonInit [] ∧ decodeFrame [0x08] = .illegal .reservedBits [] ∧
    decodeFrame [0x09] = .illegal .reservedBits [] ∧ decodeFrame [0xff] = .illegal .reservedBits [] := by decide

theorem test_decode_incomplete : decodeFrame [0x01, 0, 0, 0, 0, 0, 0, 0] = .incomplete ∧
    decodeFrame [0x01, 0, 0, 0, 0, 0, 0, 0, 2, 0x61] = .incomplete := by decide

/-- The rows of the opcode table, their other bits zero. -/
theorem test_table_words : decodeTableWord 8 0x00 = some (.init .v256) ∧ decodeTableWord 8 0x01 = some (.update []) ∧
    decodeTableWord 8 0x02 = some .finalize ∧ decodeTableWord 8 0x03 = some (.digest []) ∧
    decodeTableWord 8 0x05 = none := by decide

/-- A table word runs as the first command after reset: `FINALIZE` answers 0x01 there (R202). -/
theorem test_withFetchWord_runs :
    step (State.reset.withFetchWord 8 0x02) = .next { State.reset with rspOut := [0x01] } := rfl

/-! ## Primitives (`95_test_vectors.md` section 2) -/

theorem test_sigmas_6a09e667 : bigSigma0 0x6a09e667 = 0xce20b47e ∧ bigSigma1 0x6a09e667 = 0x55b65510 ∧
    smallSigma0 0x6a09e667 = 0xba0cf582 ∧ smallSigma1 0x6a09e667 = 0xcfe5da3c := by decide

theorem test_sigmas_deadbeef : bigSigma0 0xdeadbeef = 0xb62e25ac ∧ bigSigma1 0xdeadbeef = 0x345e14a3 ∧
    smallSigma0 0xdeadbeef = 0xabd31b0b ∧ smallSigma1 0xdeadbeef = 0x689dbfec := by decide

theorem test_rotr_shr : rotr 0x12345678 8 = 0x78123456 ∧ shr 0x12345678 8 = 0x00123456 ∧ rotr 0xdeadbeef 25 = 0x56df77ef ∧
    rotr 0x80000000 31 = 0x00000001 := by decide

theorem test_ch_maj : ch 0xf0f0f0f0 0xcccccccc 0xaaaaaaaa = 0xcacacaca ∧ maj 0xf0f0f0f0 0xcccccccc 0xaaaaaaaa = 0xe8e8e8e8 ∧
    ch 0x510e527f 0x9b05688c 0x1f83d9ab = 0x1f85c98c ∧ maj 0x6a09e667 0xbb67ae85 0x3c6ef372 = 0x3a6fe667 := by decide

theorem test_counter : bitLength (addLength 0x3c 70) = 0x410 ∧ fillLevel (addLength 0x3c 70) = 2 ∧
    bitLength 0x1fffffffffffffff = 0xfffffffffffffff8 ∧ bitLength (addLength 0x1fffffffffffffff 1) = 0 ∧
    addLength 0xffffffffffffffc0 128 = 0x40 := by decide

/-! ## Compress (`95_test_vectors.md` section 3) -/

/-- The padded block of the message "abc". -/
def abcBlock : List Byte := [0x61, 0x62, 0x63, 0x80] ++ zeros 59 ++ [0x18]

/-- Rows `W[16..23]` and `W[56..63]` of section 3.1. -/
theorem test_schedule_abc : ((schedule abcBlock).drop 16).take 8 =
      [0x61626380, 0x000f0000, 0x7da86405, 0x600003c6, 0x3e9d7b78, 0x0183fc00, 0x12dcbfdb, 0xe2e2c38e] ∧
    (schedule abcBlock).drop 56 =
      [0xef57b9cd, 0xebe6b238, 0x9fe3095e, 0x78bc8d4b, 0xa43fcf15, 0x668b2ff8, 0xeeaba2cc, 0x12b1edeb] := by decide +kernel

/-- Round 0 of section 3.1. -/
theorem test_round_zero : sourceRound (loadWorking iv256) 0x428a2f98 0x61626380 =
    ⟨0x5d6aebcd, 0x6a09e667, 0xbb67ae85, 0x3c6ef372, 0xfa2a4622, 0x510e527f, 0x9b05688c, 0x1f83d9ab⟩ := by decide +kernel

/-- Section 3.2, second row: no input but `K`. -/
theorem test_compress_zeros : compress (Vector.replicate 8 0) (zeros 64) =
    #v[0x7ca51614, 0x425c3ba8, 0xce54dd2f, 0xc2020ae7, 0xb6e574d1, 0x98136d0f, 0xae7e26cc, 0xbf0be7a6] := by decide +kernel

/-! ## Commands (`95_test_vectors.md` sections 4 to 8) -/

theorem test_init256 : answer (.init .v256) State.reset = [0x00] ∧ opened.ctx.H = iv256 ∧ opened.ctx.phase = .active := by decide

/-- Section 5.2: 60 bytes into a fresh context fill the buffer to 60 and compress nothing. -/
theorem test_update_sixty : (after (exec (.update ((List.range 60).map (BitVec.ofNat 8))) opened)).ctx.H = iv256 ∧
    liveBytes (after (exec (.update ((List.range 60).map (BitVec.ofNat 8))) opened)).ctx = (List.range 60).map (BitVec.ofNat 8) := by
  decide +kernel

/-- Section 5.2: 60 bytes, then 70: two compressions, two live bytes. -/
theorem test_update_sixty_seventy :
    let t := after (exec (.update ((List.range 70).map fun k => BitVec.ofNat 8 (60 + k)))
      (after (exec (.update ((List.range 60).map (BitVec.ofNat 8))) opened)))
    t.ctx.H = #v[0x593253ad, 0xfb4cc018, 0xbe611395, 0x485e47c1, 0x5a5b271d, 0xfb8da14f, 0xe8f77fb4, 0xd05eacbc] ∧
      liveBytes t.ctx = [0x80, 0x81] ∧ t.ctx.total = 130 := by decide +kernel

/-- Program P1: `FINALIZE` after "abc". -/
theorem test_finalize_abc : answer .finalize (after (exec (.update [0x61, 0x62, 0x63]) opened)) = [0x00, 0x00, 0x00] ++
    [0xba, 0x78, 0x16, 0xbf, 0x8f, 0x01, 0xcf, 0xea, 0x41, 0x41, 0x40, 0xde, 0x5d, 0xae, 0x22, 0x23] ++
    [0xb0, 0x03, 0x61, 0xa3, 0x96, 0x17, 0x7a, 0x9c, 0xb4, 0x10, 0xff, 0x61, 0xf2, 0x00, 0x15, 0xad] := by decide +kernel

/-- Section 6, under its premise: "abc" with the default `IV224`, and 28 bytes of digest. -/
theorem test_finalize_224_abc : (finalizeActive (updateActive [0x61, 0x62, 0x63]
      { State.reset.ctx with H := iv224Default, total := 0, dlen := .len28, phase := .active }).1).2.digest =
    [0x23, 0x09, 0x7d, 0x22, 0x34, 0x05, 0xd8, 0x22, 0x86, 0x42, 0xa4, 0x77, 0xbd, 0xa2] ++
    [0x55, 0xb3, 0x2a, 0xad, 0xbc, 0xe4, 0xbd, 0xa0, 0xb3, 0xf7, 0xe3, 0x6c, 0x9d, 0xa7] := by decide +kernel

/-- Section 4, `n = 0`. -/
theorem test_digest_empty : answer (.digest []) State.reset = [0x00] ++
    [0xe3, 0xb0, 0xc4, 0x42, 0x98, 0xfc, 0x1c, 0x14, 0x9a, 0xfb, 0xf4, 0xc8, 0x99, 0x6f, 0xb9, 0x24] ++
    [0x27, 0xae, 0x41, 0xe4, 0x64, 0x9b, 0x93, 0x4c, 0xa4, 0x95, 0x99, 0x1b, 0x78, 0x52, 0xb8, 0x55] := by decide +kernel

/-- Section 4, `n = 56`: two final blocks, from a spent context. -/
theorem test_digest_fifty_six : answer (.digest (List.replicate 56 0x61)) (stateWith .spent 9 []) = [0x00] ++
    [0xb3, 0x54, 0x39, 0xa4, 0xac, 0x6f, 0x09, 0x48, 0xb6, 0xd6, 0xf9, 0xe3, 0xc6, 0xaf, 0x0f, 0x5f] ++
    [0x59, 0x0c, 0xe2, 0x0f, 0x1b, 0xde, 0x70, 0x90, 0xef, 0x79, 0x70, 0x68, 0x6e, 0xc6, 0x73, 0x8a] := by decide +kernel

/-! ## Witnesses -/

theorem witness_EncodedFrameDecodes : (Instr.update [0x02, 0x03]).wf = true ∧ (Instr.init .v256).wf = true := by decide

theorem witness_DecodedCommandHasOneFrame : decodeFrame [0x02, 0x08] = .command .finalize [0x08] := by decide

/-- Each clause of `Obligations.DecoderFollowsOpcodeByte` at its boundary: 7 `LEN` bytes; one payload byte short; just enough;
one more; the bytes 0x05 and 0xff. The clause of 0x04 holds of every `Config.iv224`. -/
theorem witness_DecoderFollowsOpcodeByte :
    ([0, 0, 0, 0, 0, 0, 2] : List Byte).length < 8 ∧
    ([0, 0, 0, 0, 0, 0, 0, 2, 0x61] : List Byte).length < 8 + 2 ∧
    8 + 2 ≤ ([0, 0, 0, 0, 0, 0, 0, 2, 0x61, 0x62] : List Byte).length ∧
    8 + 2 ≤ ([0, 0, 0, 0, 0, 0, 0, 2, 0x61, 0x62, 0x63] : List Byte).length ∧
    (∑ k ∈ Finset.range 8, (([0, 0, 0, 0, 0, 0, 0, 2, 0x61] : List Byte).getD k 0).toNat * 2 ^ (8 * (7 - k))) = 2 ∧
    0x05 ≤ (0x05 : Byte).toNat ∧ 0x05 ≤ (0xff : Byte).toNat ∧ ¬ 0x05 ≤ (0x04 : Byte).toNat := by decide +kernel

theorem witness_LaterBytesLeaveDecodingAlone :
    decodeFrame [0x00, 0x02] = .command (.init .v256) [0x02] ∧ decodeFrame [0x0a, 0x02] = .illegal .reservedBits [0x02] := by
  decide

theorem witness_StepPerformsDecodedCommand : (stateWith .active 3 [0x02, 0x00]).resetIn = false ∧
    decodeFrame (stateWith .active 3 [0x02, 0x00]).cmdIn = .command .finalize [0x00] := by decide

/-- Both sides of the condition are met, at its boundary. -/
theorem witness_IllegalByteIsAnswered : (stateWith .active 3 [0x05]).resetIn = false ∧ (stateWith .active 3 [0x05]).cmdIn = 0x05 :: [] ∧
    (stateWith .active 3 [0x03]).cmdIn = 0x03 :: [] ∧ ¬ (0x05 ≤ (0x03 : Byte).toNat ∨ ((0x03 : Byte) = 0x04 ∧ Config.iv224 = none)) :=
  ⟨rfl, rfl, rfl, by rintro (h | ⟨h, -⟩) <;> revert h <;> decide⟩

theorem witness_WaitingChangesNothing : (stateWith .active 3 [0x01, 0]).waiting ∧ State.reset.waiting := ⟨⟨rfl, rfl⟩, ⟨rfl, rfl⟩⟩

theorem witness_OneResponsePerFrame : (stateWith .spent 3 [0x02]).resetIn = false := rfl

theorem witness_HostWriteCommutesWithStep : ∃ t, (stateWith .spent 3 [0x02]).resetIn = false ∧ ¬ (stateWith .spent 3 [0x02]).waiting ∧
    step (stateWith .spent 3 [0x02]) = .next t := by
  refine ⟨_, rfl, ?_, rfl⟩
  rintro ⟨-, h⟩
  revert h; decide

theorem witness_RunEndsWaiting : (stateWith .uninit 0 [0x02, 0x08, 0x01, 0x00]).resetIn = false := rfl

theorem witness_ByteLayerRefinesAbstractStep :
    let fs : List (List Byte × Command) := [([0x00], .instr (.init .v256)), ([0x08], .illegal), ([0x02], .instr .finalize)]
    (stateWith .uninit 0 [0x00, 0x08, 0x02]).resetIn = false ∧ (stateWith .uninit 0 [0x00, 0x08, 0x02]).cmdIn = (fs.map Prod.fst).flatten ∧
      ∀ f ∈ fs, isFrameOf f.1 f.2 := by
  refine ⟨rfl, rfl, ?_⟩
  simp only [List.mem_cons, List.not_mem_nil, or_false, forall_eq_or_imp, forall_eq]
  exact ⟨rfl, ⟨_, rfl⟩, rfl⟩

/-- Two states that differ in `total` and `phase`. -/
theorem witness_InitForgetsEarlierMessages : variantPresent .v256 = true ∧
    (stateWith .active 3 []).cmdIn = (stateWith .spent 9 []).cmdIn ∧ (stateWith .active 3 []).rspOut = (stateWith .spent 9 []).rspOut ∧
    (stateWith .active 3 []).resetIn = (stateWith .spent 9 []).resetIn ∧ stateWith .active 3 [] ≠ stateWith .spent 9 [] := by decide

/-- Phase ACTIVE, the hypothesis of the statements about `UPDATE` and `FINALIZE`. -/
theorem witness_active : (stateWith .active 3 []).ctx.phase = .active := rfl

/-- The clauses of `Obligations.UpdateCornerCases` at their boundaries: fill 0 with 0, 63 and 64 bytes; fill 3 with 60, 61 and 62;
the wrap of `total` by one byte. -/
theorem witness_UpdateCornerCases :
    fillLevel (stateWith .active 0 []).ctx.total = 0 ∧ fillLevel (stateWith .active 128 []).ctx.total = 0 ∧ (zeros 63).length < 64 ∧
    (zeros 64).length = 64 ∧ fillLevel (stateWith .active 3 []).ctx.total = 3 ∧ (zeros 60).length < 64 - 3 ∧
    (zeros 61).length = 64 - 3 ∧ 64 - 3 < (zeros 62).length ∧
    2 ^ 64 ≤ (stateWith .active (BitVec.ofNat 64 (2 ^ 64 - 1)) []).ctx.total.toNat + (zeros 1).length := by decide

theorem witness_OutOfOrderUseIsAnswered : (stateWith .uninit 0 []).ctx.phase = .uninit ∧ (stateWith .spent 0 []).ctx.phase = .spent ∧
    (Instr.finalize = .finalize ∨ ∃ data, Instr.finalize = .update data) ∧
    (Instr.update [0x61] = .finalize ∨ ∃ data, Instr.update [0x61] = .update data) := ⟨rfl, rfl, .inl rfl, .inr ⟨_, rfl⟩⟩

theorem witness_DigestIndependentOfFragments : variantPresent .v256 = true := rfl

/-- Both branches of `Obligations.FinalizePadsCompressesEmits`, at the boundary of `index`. -/
theorem witness_FinalizePadsCompressesEmits :
    (stateWith .active 55 []).ctx.phase = .active ∧ (stateWith .active 55 []).ctx.total.toNat % 64 ≤ 55 ∧
    (stateWith .active 56 []).ctx.phase = .active ∧ ¬ (stateWith .active 56 []).ctx.total.toNat % 64 ≤ 55 := by decide

/-- A context that holds a message: `INIT(V256)`, then three bytes. -/
theorem witness_FinalizeEmitsDigestOfMessage :
    Represents (updateActive [0x61, 0x62, 0x63] opened.ctx).1 .v256 [0x61, 0x62, 0x63] ∧ initialHash .v256 = some iv256 ∧
      ([0x61, 0x62, 0x63] : List Byte).length < 2 ^ 61 :=
  ⟨represents_updateActive (represents_performInit rfl State.reset.ctx) _, rfl, by decide⟩

theorem witness_DigestComputesTheHash : ([] : List Byte).length < 2 ^ 61 ∧ (zeros 200).length < 2 ^ 61 := by simp

theorem witness_PhaseTransitions : (Instr.init .v256).wf = true ∧ (Instr.update []).wf = true ∧ Instr.finalize.wf = true ∧
    (Instr.digest [0x61]).wf = true := by decide

/-- The second part of `Obligations.OutcomeTable`, at the boundary of the illegal bytes, and a command for the first. -/
theorem witness_OutcomeTable : Instr.finalize.wf = true ∧ (stateWith .spent 3 [0x05]).resetIn = false ∧
    (stateWith .spent 3 [0x05]).cmdIn = 0x05 :: [] ∧ 0x05 ≤ (0x05 : Byte).toNat := by decide

theorem witness_ErrorsChangeNothing : ∃ t, (stateWith .active 3 [0x08, 0x00]).resetIn = false ∧
    step (stateWith .active 3 [0x08, 0x00]) = .next t ∧ t.rspOut = (stateWith .active 3 [0x08, 0x00]).rspOut ++ 0x03 :: [] ∧
    (0x03 : Byte) ≠ 0x00 := ⟨_, rfl, rfl, rfl, by decide⟩

/-- An ACTIVE state with the invariant that takes a step. -/
theorem witness_StepKeepsMessageInvariant : ∃ t, Inv { opened with cmdIn := [0x01, 0, 0, 0, 0, 0, 0, 0, 1, 0x61] } ∧
    opened.ctx.phase = .active ∧ step { opened with cmdIn := [0x01, 0, 0, 0, 0, 0, 0, 0, 1, 0x61] } = .next t :=
  ⟨_, fun _ => ⟨.v256, [], represents_performInit rfl State.reset.ctx⟩, rfl, rfl⟩

theorem witness_UpdateExtendsHeldMessage : Represents opened.ctx .v256 [] := represents_performInit rfl State.reset.ctx

/-- Two spent states with different counters agree. -/
theorem witness_StepKeepsAgreement : (stateWith .spent 3 [0x00]).Agree (stateWith .spent 9 [0x00]) ∧ stateWith .spent 3 [0x00] ≠ stateWith .spent 9 [0x00] :=
  ⟨⟨⟨rfl, fun h => by cases h⟩, rfl, rfl, rfl⟩, by decide⟩

theorem witness_UnspecifiedResetContentsUnobservable : (stateWith .uninit 0 [0x00]).ctx.phase = .uninit ∧
    (stateWith .uninit 9 [0x00]).ctx.phase = .uninit ∧ (stateWith .uninit 0 [0x00]).cmdIn = (stateWith .uninit 9 [0x00]).cmdIn ∧
    (stateWith .uninit 0 [0x00]).rspOut = (stateWith .uninit 9 [0x00]).rspOut ∧
    (stateWith .uninit 0 [0x00]).resetIn = (stateWith .uninit 9 [0x00]).resetIn := by decide

/-- The bits of `Obligations.SigmasAreLinear` on both sides of where the shifts by 3 and by 10 run out. -/
theorem witness_SigmasAreLinear :
    (28 < 32 ∧ 28 + 3 < 32) ∧ (29 < 32 ∧ ¬ 29 + 3 < 32) ∧ (21 < 32 ∧ 21 + 10 < 32) ∧ 22 < 32 ∧ ¬ 22 + 10 < 32 := by decide

/-- The ranges of the statements about Compress, the primitives and the buffer are not empty, at both ends. -/
theorem witness_ranges : (0 < 16 ∧ 15 < 16 ∧ 16 ≤ 16 ∧ 16 < 64 ∧ 16 ≤ 63 ∧ 63 < 64) ∧ (0 < 1 ∧ 1 < 32 ∧ 31 < 32) ∧
    61 + ([1, 2, 3] : List Byte).length ≤ 64 ∧ (0 + 64 ≤ 64 ∧ 60 < 61 ∧ 64 + 0 ≤ 64) := by decide

end Sys2Proof.Machine.Tests
end

/-! SUPPORT. What the phase check, the commands and the step do to single fields, and to contexts that agree. -/

namespace Sys2Proof.Machine

/-! ## The phase check -/

theorem whenActive_uninit {c : Context} (h : c.phase = .uninit) (act : Context → Context × Response) :
    whenActive c act = raiseError .notInitialized c := by simp [whenActive, h, phaseError]

theorem whenActive_spent {c : Context} (h : c.phase = .spent) (act : Context → Context × Response) :
    whenActive c act = raiseError .alreadyFinalized c := by simp [whenActive, h, phaseError]

/-- Outside ACTIVE a guarded command is an error, and an error writes nothing (R206). -/
theorem whenActive_ctx_of_not_active {c : Context} (h : c.phase ≠ .active) (act : Context → Context × Response) :
    (whenActive c act).1 = c := by
  cases hp : c.phase with
  | uninit => rw [whenActive_uninit hp, raiseError_ctx]
  | active => exact absurd hp h
  | spent => rw [whenActive_spent hp, raiseError_ctx]

/-- What a guarded command does not write in ACTIVE stays in every phase. -/
theorem whenActive_keeps {α : Type} (field : Context → α) {c : Context} {act : Context → Context × Response}
    (h : field (act c).1 = field c) : field (whenActive c act).1 = field c := by
  by_cases hp : c.phase = .active
  · rw [whenActive_active hp, h]
  · rw [whenActive_ctx_of_not_active hp]

/-- A guarded command keeps agreement if its ACTIVE part does: both contexts take the same branch. -/
theorem whenActive_agree {c₁ c₂ : Context} {act : Context → Context × Response} (h : c₁.Agree c₂)
    (hact : c₁.phase = .active → (act c₁).1.Agree (act c₂).1 ∧ (act c₁).2 = (act c₂).2) :
    (whenActive c₁ act).1.Agree (whenActive c₂ act).1 ∧ (whenActive c₁ act).2 = (whenActive c₂ act).2 := by
  have hphase : c₂.phase = c₁.phase := h.1.symm
  cases hp : c₁.phase with
  | uninit => rw [whenActive_uninit hp, whenActive_uninit (hphase.trans hp)]; exact ⟨h, rfl⟩
  | active => rw [whenActive_active hp, whenActive_active (hphase.trans hp)]; exact hact hp
  | spent => rw [whenActive_spent hp, whenActive_spent (hphase.trans hp)]; exact ⟨h, rfl⟩

/-! ## The commands, field by field -/

theorem performUpdate_active {c : Context} (h : c.phase = .active) (data : List Byte) :
    performUpdate data c = updateActive data c := whenActive_active h _

theorem performFinalize_active {c : Context} (h : c.phase = .active) : performFinalize c = finalizeActive c :=
  whenActive_active h _

/-- `INIT` does not write `buffer` (R153). -/
@[simp] theorem performInit_buffer (v : Variant) (c : Context) : (performInit v c).1.buffer = c.buffer := by
  cases h : initialHash v with
  | none => rw [performInit_absent h]
  | some iv => rw [performInit_present h]

@[simp] theorem performUpdate_dlen (data : List Byte) (c : Context) : (performUpdate data c).1.dlen = c.dlen :=
  whenActive_keeps Context.dlen rfl

@[simp] theorem performUpdate_phase (data : List Byte) (c : Context) : (performUpdate data c).1.phase = c.phase :=
  whenActive_keeps Context.phase rfl

@[simp] theorem performFinalize_total (c : Context) : (performFinalize c).1.total = c.total :=
  whenActive_keeps Context.total rfl

@[simp] theorem performFinalize_dlen (c : Context) : (performFinalize c).1.dlen = c.dlen :=
  whenActive_keeps Context.dlen rfl

/-- `FINALIZE` leaves UNINIT alone and ends in SPENT from the other two phases (R29). -/
theorem performFinalize_phase (c : Context) :
    (performFinalize c).1.phase = if c.phase = .uninit then .uninit else .spent := by
  rcases whenActive_cases c finalizeActive with ⟨hp, he⟩ | ⟨hp, he⟩ | ⟨hp, he⟩ <;>
    simp [performFinalize, he, hp, finalizeActive]

@[simp] theorem performDigest_phase (msg : List Byte) (c : Context) : (performDigest msg c).1.phase = .spent := by
  rw [performDigest_eq]; rfl

/-! ## Agreement -/

theorem performFinalize_agree {c₁ c₂ : Context} (h : c₁.Agree c₂) :
    (performFinalize c₁).1.Agree (performFinalize c₂).1 ∧ (performFinalize c₁).2 = (performFinalize c₂).2 :=
  whenActive_agree h fun hp => finalizeActive_agree hp h

/-- No command tells agreeing contexts apart: it leaves agreeing contexts and gives the same response (R36, R38, R180). -/
theorem perform_agree (i : Instr) {c₁ c₂ : Context} (h : c₁.Agree c₂) :
    (perform i c₁).1.Agree (perform i c₂).1 ∧ (perform i c₁).2 = (perform i c₂).2 := by
  cases i with
  | init v =>
    cases hv : initialHash v with
    | none => simp only [perform, performInit_absent hv]; exact ⟨h, trivial⟩
    | some iv => exact performInit_agree hv c₁ c₂
  | update data => exact performUpdate_agree data h
  | finalize => exact performFinalize_agree h
  | digest msg =>
    have hinit := (performInit_agree (v := .v256) rfl c₁ c₂).1
    exact performFinalize_agree (performUpdate_agree msg hinit).1

/-- Outside ACTIVE nothing but `phase` has to agree (R39, R180). -/
theorem Context.agree_of_uninit {c₁ c₂ : Context} (h₁ : c₁.phase = .uninit) (h₂ : c₂.phase = .uninit) : c₁.Agree c₂ :=
  ⟨h₁.trans h₂.symm, fun h => by simp [h₁] at h⟩

/-- Machines that agree still agree when the same frame is consumed and completed with agreeing results. -/
theorem State.Agree.complete {s₁ s₂ : State} (h : s₁.Agree s₂) (rest : List Byte) {r₁ r₂ : Context × Response}
    (hctx : r₁.1.Agree r₂.1) (hresp : r₁.2 = r₂.2) :
    (State.complete { s₁ with cmdIn := rest } r₁).Agree (State.complete { s₂ with cmdIn := rest } r₂) := by
  obtain ⟨-, -, hout, hreset⟩ := h
  exact ⟨hctx, rfl, by simp [hout, hresp], hreset⟩

theorem takeReset_agree (s₁ s₂ : State) : (takeReset s₁).Agree (takeReset s₂) :=
  ⟨Context.agree_of_uninit rfl rfl, rfl, rfl, rfl⟩

/-! ## The step, by what stands at the head of `CMD_IN` -/

theorem step_of_reset {s : State} (h : s.resetIn = true) : step s = .next (takeReset s) := by simp [step, h]

theorem step_of_command {s : State} {i : Instr} {rest : List Byte} (hr : s.resetIn = false)
    (hd : decodeFrame s.cmdIn = .command i rest) :
    step s = .next (State.complete { s with cmdIn := rest } (perform i s.ctx)) := by
  simp [step, hr, hd, exec_eq_complete]

theorem step_of_illegal {s : State} {why : IllegalReason} {rest : List Byte} (hr : s.resetIn = false)
    (hd : decodeFrame s.cmdIn = .illegal why rest) :
    step s = .next (State.complete { s with cmdIn := rest } (performIllegal s.ctx)) := by simp [step, hr, hd]

theorem step_of_incomplete {s : State} (hr : s.resetIn = false) (hd : decodeFrame s.cmdIn = .incomplete) :
    step s = .next s := by simp [step, hr, hd]

/-- Machines that agree step alike: they decode the same frame, and no command tells their contexts apart. -/
theorem State.Agree.step {s₁ s₂ : State} (h : s₁.Agree s₂) :
    ∃ t₁ t₂, Machine.step s₁ = .next t₁ ∧ Machine.step s₂ = .next t₂ ∧ t₁.Agree t₂ := by
  have ⟨hctx, hcmd, _, hreset⟩ := h
  rcases step_cases s₁ with ⟨hr, e⟩ | ⟨hr, i, rest, hd, -, -, e⟩ | ⟨hr, why, b, rest, hd, -, e⟩ | ⟨hr, hd, e⟩ <;>
    rw [hreset] at hr
  · exact ⟨_, _, e, step_of_reset hr, takeReset_agree s₁ s₂⟩
  · have ⟨hc, hresp⟩ := perform_agree i hctx
    exact ⟨_, _, e, step_of_command hr (hcmd ▸ hd), h.complete rest hc hresp⟩
  · exact ⟨_, _, e, step_of_illegal hr (hcmd ▸ hd), h.complete rest hctx rfl⟩
  · exact ⟨_, _, e, step_of_incomplete hr (hcmd ▸ hd), h⟩

/-- The induction over steps: agreement is kept by every run. -/
theorem State.Agree.runSteps {s₁ s₂ : State} (h : s₁.Agree s₂) (k : Nat) :
    ∃ t₁ t₂, Machine.runSteps k s₁ = .next t₁ ∧ Machine.runSteps k s₂ = .next t₂ ∧ t₁.Agree t₂ := by
  induction k generalizing s₁ s₂ with
  | zero => exact ⟨s₁, s₂, rfl, rfl, h⟩
  | succ k ih =>
    obtain ⟨u₁, u₂, e₁, e₂, hu⟩ := h.step
    rw [runSteps_succ k e₁, runSteps_succ k e₂]
    exact ih hu

/-! ## The blocks that `UPDATE` and `FINALIZE` compress -/

/-- Every block of a message has 64 bytes (R26). -/
theorem length_of_mem_messageBlocks {m b : List Byte} (hb : b ∈ messageBlocks m) : b.length = 64 :=
  length_of_mem_wholeBlocks (Nat.mul_div_le _ _) hb

/-- `FINALIZE` compresses the final buffers, one block for a fill level of at most 55 and else two (R172, R173). -/
theorem finalHash_eq_chain (c : Context) :
    ∃ blocks, finalHash c = chain c.H blocks ∧ (∀ b ∈ blocks, b.length = 64) ∧
      blocks.length = if fillLevel c.total ≤ 55 then 1 else 2 := by
  have hf := fillLevel_lt c.total
  by_cases h : fillLevel c.total ≤ 55
  · have hone : needsSecondBlock (fillLevel c.total) = false := by simp [needsSecondBlock]; omega
    refine ⟨[(finalBuffer c).toList], ?_, by simp, by simp [h]⟩
    simp [finalHash, lastBlockHash, hone, chain_cons]
  · have htwo : needsSecondBlock (fillLevel c.total) = true := by simp [needsSecondBlock]; omega
    refine ⟨[(firstFinalBuffer c).toList, (finalBuffer c).toList], ?_, by simp, by simp [h]⟩
    simp [finalHash, lastBlockHash, htwo, chain_cons]

end Sys2Proof.Machine

/-! The obligations of the family `10_state.md`. -/

namespace Sys2Proof.Machine

/-- Settles O37: a RESET leaves ACTIVE, a command keeps the message, and the other steps leave the context alone. -/
theorem stepKeepsMessageInvariant : Obligations.StepKeepsMessageInvariant := by
  intro s t hinv hstep
  rcases step_cases s with ⟨-, e⟩ | ⟨-, i, rest, -, -, -, e⟩ | ⟨-, why, b, rest, -, -, e⟩ | ⟨-, -, e⟩ <;>
    obtain rfl := Host.Outcome.next.inj (e.symm.trans hstep)
  · intro hactive; simp at hactive
  · exact perform_keeps_message i s.ctx hinv
  · exact hinv
  · exact hinv

/-- Settles O40. -/
theorem stepKeepsAgreement : Obligations.StepKeepsAgreement := fun _ _ h => h.step

/-- Settles O41: UNINIT machines with the same streams agree, and agreement is kept by every run. -/
theorem unspecifiedResetContentsUnobservable : Obligations.UnspecifiedResetContentsUnobservable := by
  intro s₁ s₂ k hp₁ hp₂ hcmd hout hreset
  have hagree : s₁.Agree s₂ := ⟨Context.agree_of_uninit hp₁ hp₂, hcmd, hout, hreset⟩
  obtain ⟨t₁, t₂, e₁, e₂, -, hcmd', hout', -⟩ := hagree.runSteps k
  exact ⟨t₁, t₂, e₁, e₂, hout', hcmd'⟩

/-- Settles O32, command by command. -/
theorem phaseTransitions : Obligations.PhaseTransitions := by
  intro s i hwf
  refine ⟨_, exec_eq_complete i s, ?_⟩
  cases i with
  | init v =>
    obtain ⟨iv, hiv⟩ := initialHash_of_present hwf
    simp [perform, performInit_present hiv]
  | update data => exact performUpdate_phase data s.ctx
  | finalize =>
    simp only [State.complete_ctx, perform, performFinalize_phase]
    cases s.ctx.phase <;> rfl
  | digest msg => exact performDigest_phase msg s.ctx

/-- Settles O35: the machine around the context by `State.complete`, the fields of the context command by command. -/
theorem fieldsEachCommandLeavesAlone : Obligations.FieldsEachCommandLeavesAlone := by
  intro s i
  refine ⟨_, exec_eq_complete i s, rfl, rfl, rfl, ⟨_, List.cons_ne_nil _ _, rfl⟩, ?_⟩
  cases i with
  | init v => exact performInit_buffer v s.ctx
  | update data => exact ⟨performUpdate_dlen data s.ctx, performUpdate_phase data s.ctx⟩
  | finalize => exact ⟨performFinalize_total s.ctx, performFinalize_dlen s.ctx⟩
  | digest msg => trivial

/-- Settles O36: in ACTIVE the blocks are those of the live bytes with the payload, or the final buffers; an error compresses
none. -/
theorem hashChangesOnlyByCompression : Obligations.HashChangesOnlyByCompression := by
  intro s i hi
  by_cases hp : s.ctx.phase = .active
  · rcases hi with rfl | ⟨data, rfl⟩
    · obtain ⟨blocks, hH, h64, hlen⟩ := finalHash_eq_chain s.ctx
      refine ⟨_, blocks, exec_eq_complete _ s, ?_, h64, by rw [hlen, hp]; rfl⟩
      rw [State.complete_ctx, perform, performFinalize_active hp, ← hH]; rfl
    · refine ⟨_, messageBlocks (liveBytes s.ctx ++ data), exec_eq_complete _ s, ?_,
        fun _ => length_of_mem_messageBlocks, ?_⟩
      · rw [State.complete_ctx, perform, performUpdate_active hp, (updateActive_spec data s.ctx).1]
      · rw [length_messageBlocks, List.length_append, length_liveBytes, hp]; rfl
  · have hctx : (perform i s.ctx).1 = s.ctx := by
      rcases hi with rfl | ⟨data, rfl⟩ <;> exact whenActive_ctx_of_not_active hp _
    refine ⟨_, [], exec_eq_complete i s, congrArg Context.H hctx, by simp, ?_⟩
    rcases hi with rfl | ⟨data, rfl⟩ <;> simp [hp]

/-- Settles O38. -/
theorem updateExtendsHeldMessage : Obligations.UpdateExtendsHeldMessage := by
  intro s v m data h
  refine ⟨_, exec_eq_complete _ s, ?_⟩
  rw [State.complete_ctx, perform, performUpdate_active h.phase]
  exact represents_updateActive h data

/-- Settles O11. -/
theorem stateAfterReset : Obligations.StateAfterReset :=
  ⟨State.reset_phase, State.reset_cmdIn, State.reset_rspOut, State.reset_resetIn⟩

/-- Settles O39: reset is UNINIT, so nothing is asked of it. -/
theorem messageInvariantAtReset : Obligations.MessageInvariantAtReset := by
  intro hactive
  simp at hactive

end Sys2Proof.Machine

/-! SUPPORT. The bytes of words, dwords and the buffer by position (R52 to R56, R66). -/

namespace Sys2Proof.Machine

/-! ## Bytes of big-endian numbers -/

/-- Appending bits on the right scales the left part: positional notation in base `2 ^ n`. -/
theorem toNat_append_eq_mul_add {w n : Nat} (x : BitVec w) (y : BitVec n) :
    (x ++ y).toNat = x.toNat * 2 ^ n + y.toNat := by
  rw [BitVec.toNat_append, ← Nat.shiftLeft_add_eq_or_of_lt y.isLt, Nat.shiftLeft_eq]

theorem toNat_be32 (b0 b1 b2 b3 : Byte) :
    (be32 b0 b1 b2 b3).toNat = b0.toNat * 2 ^ 24 + b1.toNat * 2 ^ 16 + b2.toNat * 2 ^ 8 + b3.toNat := by
  change BitVec.toNat (b0 ++ b1 ++ b2 ++ b3) = _
  simp only [toNat_append_eq_mul_add]
  ring

theorem getD_bytes32 (w : Word) {k : Nat} (hk : k < 4) : (bytes32 w).getD k 0 = w.extractLsb' (24 - 8 * k) 8 := by
  interval_cases k <;> rfl

theorem getD_bytes64 (d : Dword) {k : Nat} (hk : k < 8) : (bytes64 d).getD k 0 = d.extractLsb' (56 - 8 * k) 8 := by
  interval_cases k <;> rfl

/-- Word `i` of a list of words stands at byte `4 * i` of its bytes. -/
theorem getD_flatMap_bytes32 (ws : List Word) (i : Nat) {k : Nat} (hk : k < 4) :
    (ws.flatMap bytes32).getD (4 * i + k) 0 = (bytes32 (ws.getD i 0)).getD k 0 := by
  induction ws generalizing i with
  | nil => rw [getD_bytes32 _ hk]; simp
  | cons w ws ih =>
    rw [List.flatMap_cons]
    cases i with
    | zero => rw [List.getD_append _ _ _ _ (by simpa using hk)]; simp
    | succ i =>
      rw [List.getD_append_right _ _ _ _ (by simp; omega), List.getD_cons_succ, ← ih]
      congr 1; simp; omega

theorem getD_serialize (h : HashState) {i k : Nat} (hi : i < 8) (hk : k < 4) :
    (serialize h).getD (4 * i + k) 0 = h[i].extractLsb' (24 - 8 * k) 8 := by
  rw [serialize, getD_flatMap_bytes32 _ _ hk, getD_bytes32 _ hk, List.getD_eq_getElem _ _ (by simpa using hi),
    Vector.getElem_toList]

@[simp] theorem getD_zeros (n k : Nat) : (zeros n).getD k 0 = 0 := by
  rw [List.getD_eq_getElem?_getD, zeros, List.getElem?_replicate]
  split <;> rfl

/-! ## Buffer accesses -/

/-- A read of the range just written gives the written bytes. -/
theorem bufRead_bufWrite_same (b : Buffer) (i : Nat) (v : List Byte) (h : i + v.length ≤ 64) :
    bufRead (bufWrite b i v) i v.length = v := by
  rw [bufRead, toList_bufWrite _ _ _ h, List.append_assoc, List.drop_left' (by simp; omega), List.take_left]

theorem getElem_bufWrite_of_outside (b : Buffer) {i : Nat} {v : List Byte} {k : Nat} (hk : k < 64)
    (h : k < i ∨ i + v.length ≤ k) : (bufWrite b i v)[k] = b[k] := by
  rw [getElem_bufWrite, if_neg (by omega)]

theorem getElem?_bufRead (b : Buffer) {j n k : Nat} (hk : k < n) (h : j + k < 64) :
    (bufRead b j n)[k]? = some b[j + k] := by
  simp [bufRead, hk, h]

/-! ## The marker in a word of the buffer

Both sides of the marker's word form are described through the four bytes of the word: byte `k` of a word whose marker
stands at byte `r` is `markedByte r k` of what it was. -/

/-- Byte `k` of a word after the marker write at byte `r` of it: kept before the marker, cleared behind it. -/
def markedByte (r k : Nat) (x : Byte) : Byte := if k < r then x else if k = r then 0x80 else 0

theorem getLsbD_markedByte (r k : Nat) (x : Byte) (i : Nat) :
    (markedByte r k x).getLsbD i = if k < r then x.getLsbD i else decide (k = r ∧ i = 7) := by
  have h80 : (0x80 : Byte) = BitVec.twoPow 8 7 := rfl
  unfold markedByte
  split_ifs with h1 h2
  · rfl
  · simp [h80, BitVec.getLsbD_twoPow, h2, eq_comm]
  · simp [h2]

/-- On the buffer's bytes the marker write is `markedByte` in every byte of the word that holds `index`. -/
theorem getElem_bufWrite_marker (b : Buffer) (index : Nat) {k : Nat} (hk : k < 4) (h : 4 * (index / 4) + k < 64) :
    (bufWrite b index (0x80 :: zeros (3 - index % 4)))[4 * (index / 4) + k] =
      markedByte (index % 4) k b[4 * (index / 4) + k] := by
  rw [getElem_bufWrite, markedByte, List.length_cons, length_zeros]
  rcases Nat.lt_trichotomy k (index % 4) with hlt | heq | hgt
  · rw [if_neg (by omega), if_pos hlt]
  · rw [if_pos (by omega), if_neg (by omega), if_pos heq, show 4 * (index / 4) + k - index = 0 by omega]
    rfl
  · obtain ⟨j, hj⟩ : ∃ j, 4 * (index / 4) + k - index = j + 1 := ⟨k - index % 4 - 1, by omega⟩
    rw [if_pos (by omega), if_neg (by omega), if_neg (by omega), hj, List.getD_cons_succ, getD_zeros]

/-- A bit of the word formula: kept above the marker byte, and from there on set at the marker bit only. -/
theorem getLsbD_markerWord (w : Word) (index : Nat) {i : Nat} (hi : i < 32) :
    (markerWord w index).getLsbD i =
      if 32 ≤ i + 8 * (index % 4) then w.getLsbD i else decide (i + 8 * (index % 4) = 31) := by
  have hones : 0xFFFFFFFF#32 = BitVec.allOnes 32 := rfl
  have htop : 0x80000000#32 = BitVec.twoPow 32 31 := rfl
  rw [markerWord, hones, htop]
  simp only [BitVec.getLsbD_or, BitVec.getLsbD_and, BitVec.getLsbD_not, BitVec.getLsbD_ushiftRight,
    BitVec.getLsbD_allOnes, BitVec.getLsbD_twoPow]
  split_ifs with h
  · have h1 : ¬ 8 * (index % 4) + i < 32 := by omega
    have h2 : ¬ 31 = 8 * (index % 4) + i := by omega
    simp [hi, h1, h2]
  · have h1 : 8 * (index % 4) + i < 32 := by omega
    simp [h1, Nat.add_comm i, eq_comm]

/-- On a word given by its bytes the word formula is `markedByte` in every byte: byte by byte, the two case distinctions on
a bit agree. -/
theorem markerWord_be32 (b0 b1 b2 b3 : Byte) (index : Nat) :
    markerWord (be32 b0 b1 b2 b3) index =
      be32 (markedByte (index % 4) 0 b0) (markedByte (index % 4) 1 b1) (markedByte (index % 4) 2 b2)
        (markedByte (index % 4) 3 b3) := by
  apply BitVec.eq_of_getLsbD_eq
  intro i hi
  rw [getLsbD_be32 _ _ _ _ _ hi]
  split_ifs <;>
    simp only [getLsbD_markerWord _ _ hi, getLsbD_be32 _ _ _ _ _ hi, getLsbD_markedByte, if_true, if_false, *] <;>
    exact if_congr (by omega) rfl (decide_eq_decide.2 (by omega))

end Sys2Proof.Machine

/-! The obligations of the family `20_memory.md`. -/

namespace Sys2Proof.Machine

/-- Settles O52, conversion by conversion. -/
theorem bigEndianConversions : Obligations.BigEndianConversions :=
  ⟨toNat_be32,
    fun h => ⟨length_serialize h, fun _ _ hi hk => getD_serialize h hi hk⟩,
    fun d => ⟨length_bytes64 d, fun _ hk => getD_bytes64 d hk⟩⟩

/-- Settles O53: the read back, the bytes outside the write, and reads by position. -/
theorem bufferReadAfterWrite : Obligations.BufferReadAfterWrite := fun b i v h =>
  ⟨bufRead_bufWrite_same b i v h,
    fun _ hk hout => getElem_bufWrite_of_outside b hk hout,
    fun j n hn => ⟨length_bufRead b j n hn, fun _ hk hjk => getElem?_bufRead b hk hjk⟩⟩

/-- Settles O54: both sides mark the four bytes of the word alike. -/
theorem markerWordForm : Obligations.MarkerWordForm := by
  intro b index h
  have hbyte {k : Nat} (hk : k < 4) := getElem_bufWrite_marker b index hk (by omega)
  rw [bufferWord, bufferWord, markerWord_be32]
  congr 1
  exacts [hbyte (k := 0) (by omega), hbyte (k := 1) (by omega), hbyte (k := 2) (by omega), hbyte (k := 3) (by omega)]

end Sys2Proof.Machine

/-! SUPPORT. Decoding as the inverse of encoding, byte by byte and without look-ahead, and the step on a whole frame
(R71 to R83). -/

namespace Sys2Proof

open Machine

/-! ## Frames of commands -/

/-- The frame of a well-formed command decodes to it and leaves what follows: the one-byte frames by their opcode byte, the
format L frames by their length field. -/
theorem decodeFrame_encode_append (i : Instr) (rest : List Byte) (hwf : i.wf = true) :
    decodeFrame (encode i ++ rest) = .command i rest := by
  cases i with
  | init v =>
    cases v with
    | v256 => exact decodeFrame_init256 rest
    | v224 => exact (decodeFrame_init224 rest).trans (if_pos hwf)
  | update data => exact decodePayload_encode .update data rest (of_decide_eq_true hwf)
  | finalize => exact decodeFrame_finalize rest
  | digest msg => exact decodePayload_encode .digest msg rest (of_decide_eq_true hwf)

/-- What decodes to a command is that command's frame and the rest: of the decoder's cases only the first answers a command. -/
theorem wf_and_eq_of_decodeFrame_command {s rest : List Byte} {i : Instr} (h : decodeFrame s = .command i rest) :
    i.wf = true ∧ s = encode i ++ rest := by
  rcases decodeFrame_cases s with ⟨j, r, hs, hwf, he⟩ | ⟨_, _, _, hs, -⟩ | hs <;> rw [h] at hs <;> cases hs
  exact ⟨hwf, he⟩

theorem decodeFrame_command_append {s rest : List Byte} {i : Instr} (h : decodeFrame s = .command i rest)
    (more : List Byte) : decodeFrame (s ++ more) = .command i (rest ++ more) := by
  obtain ⟨hwf, rfl⟩ := wf_and_eq_of_decodeFrame_command h
  rw [List.append_assoc, decodeFrame_encode_append i _ hwf]

/-! ## The length field -/

/-- `LEN` as the sum of R78: each of the eight bytes with its weight. -/
theorem sum_getD_eq_beNat_take {r : List Byte} (h : 8 ≤ r.length) :
    ∑ k ∈ Finset.range 8, (r.getD k 0).toNat * 2 ^ (8 * (7 - k)) = beNat (r.take 8) := by
  match r, h with
  | b0 :: b1 :: b2 :: b3 :: b4 :: b5 :: b6 :: b7 :: _, _ =>
    simp [Finset.sum_range_succ, beNat]
    ring

theorem decodePayload_of_short (mk : List Byte → Instr) {r : List Byte}
    (h : r.length < 8 ∨ r.length < 8 + beNat (r.take 8)) : decodePayload mk r = .incomplete := by
  by_cases h8 : r.length < 8
  · rw [decodePayload, if_pos h8]
  · rw [decodePayload, if_neg h8, if_pos (by simp; omega)]

theorem decodePayload_of_long (mk : List Byte → Instr) {r : List Byte} (h : 8 + beNat (r.take 8) ≤ r.length) :
    decodePayload mk r =
      .command (mk ((r.drop 8).take (beNat (r.take 8)))) (r.drop (8 + beNat (r.take 8))) := by
  rw [decodePayload, if_neg (by omega), if_neg (by simp; omega), List.drop_drop]

/-! ## Illegal bytes -/

theorem decodePayload_ne_illegal (mk : List Byte → Instr) (r : List Byte) (why : IllegalReason) (rest : List Byte) :
    decodePayload mk r ≠ .illegal why rest := by
  rcases decodePayload_cases mk r with ⟨h, -⟩ | ⟨_, _, h, -⟩ <;> simp [h]

theorem eq_cons_of_decodeFrame_illegal {s rest : List Byte} {why : IllegalReason}
    (h : decodeFrame s = .illegal why rest) : ∃ b, s = b :: rest := by
  rcases decodeFrame_cases s with ⟨_, _, hs, -⟩ | ⟨_, b, _, hs, he⟩ | hs <;> rw [h] at hs <;> cases hs
  exact ⟨b, he⟩

/-- Whether a byte is illegal, and why, does not depend on the bytes after it (R80, R83). -/
theorem decodeFrame_illegal_of_cons {b : Byte} {r r₁ : List Byte} {why : IllegalReason}
    (h : decodeFrame (b :: r) = .illegal why r₁) (r' : List Byte) : decodeFrame (b :: r') = .illegal why r' := by
  simp only [decodeFrame] at h ⊢
  split_ifs at h ⊢
  -- the three illegal branches; every other branch answers a command or waits
  case pos | pos | neg => cases h; rfl
  all_goals exact absurd h (by simp [decodePayload_ne_illegal])

theorem decodeFrame_illegal_append {s rest : List Byte} {why : IllegalReason} (h : decodeFrame s = .illegal why rest)
    (more : List Byte) : decodeFrame (s ++ more) = .illegal why (rest ++ more) := by
  obtain ⟨b, rfl⟩ := eq_cons_of_decodeFrame_illegal h
  exact decodeFrame_illegal_of_cons h (rest ++ more)

theorem five_le_toNat_iff (b : Byte) :
    0x05 ≤ b.toNat ↔ ¬ (b = 0x00 ∨ b = 0x01 ∨ b = 0x02 ∨ b = 0x03 ∨ b = 0x04) := by
  bv_omega

theorem not_variantPresent_v224_iff : ¬ variantPresent .v224 = true ↔ Config.iv224 = none := by
  simp [variantPresent]

/-- The illegal opcode bytes (R80). -/
theorem exists_decodeFrame_illegal_iff (b : Byte) (r : List Byte) :
    (∃ why rest, decodeFrame (b :: r) = .illegal why rest) ↔ 0x05 ≤ b.toNat ∨ (b = 0x04 ∧ Config.iv224 = none) := by
  by_cases h5 : 0x05 ≤ b.toNat
  · obtain ⟨why, h⟩ := decodeFrame_illegal b r ((five_le_toNat_iff b).1 h5)
    exact iff_of_true ⟨why, r, h⟩ (.inl h5)
  · rcases not_not.1 (mt (five_le_toNat_iff b).2 h5) with rfl | rfl | rfl | rfl | rfl
    · rw [decodeFrame_init256]; simp
    · rw [decodeFrame_update]; simp [decodePayload_ne_illegal]
    · rw [decodeFrame_finalize]; simp
    · rw [decodeFrame_digest]; simp [decodePayload_ne_illegal]
    · rw [decodeFrame_init224, ← not_variantPresent_v224_iff]
      by_cases hv : variantPresent .v224 = true <;> simp [hv]

end Sys2Proof

namespace Sys2Proof.Machine

/-! ## The step on a whole frame -/

/-- A step with the frame of an abstract command at the head of `CMD_IN` consumes the frame and performs the command, whatever
stands behind the frame (R71, R83, R87). -/
theorem step_of_isFrameOf {s : State} {frame rest : List Byte} {k : Command} (hr : s.resetIn = false)
    (hf : isFrameOf frame k) (hs : s.cmdIn = frame ++ rest) :
    step s = .next (State.complete { s with cmdIn := rest } (performCommand k s.ctx)) := by
  cases k with
  | instr i => exact step_of_command hr (hs ▸ decodeFrame_command_append hf rest)
  | illegal =>
    obtain ⟨_, hw⟩ := hf
    exact step_of_illegal hr (hs ▸ decodeFrame_illegal_append hw rest)

/-- The head of `CMD_IN` is no whole frame, or the frame of an abstract command (R71, R80, R81). -/
theorem incomplete_or_isFrameOf (s : List Byte) :
    decodeFrame s = .incomplete ∨ ∃ frame rest k, isFrameOf frame k ∧ s = frame ++ rest := by
  rcases decodeFrame_cases s with ⟨i, rest, -, hwf, hs⟩ | ⟨why, b, rest, h, hs⟩ | h
  · refine .inr ⟨encode i, rest, .instr i, ?_, hs⟩
    simpa [isFrameOf] using decodeFrame_encode_append i [] hwf
  · exact .inr ⟨[b], rest, .illegal, ⟨why, decodeFrame_illegal_of_cons (hs ▸ h) []⟩, hs⟩
  · exact .inl h

end Sys2Proof.Machine

/-! The obligations of the family `30_encoding.md`. -/

namespace Sys2Proof.Machine

/-- Settles O2, command by command in `decodeFrame_encode_append`. -/
theorem encodedFrameDecodes : Obligations.EncodedFrameDecodes := decodeFrame_encode_append

/-- Settles O15, by induction on the frames: the first step takes the first frame, the run goes on from there. -/
theorem byteLayerRefinesAbstractStep : Obligations.ByteLayerRefinesAbstractStep := by
  intro fs
  induction fs with
  | nil =>
    intro s _ hs _
    cases s
    cases hs
    simp [runSteps, performCommands]
  | cons f fs ih =>
    intro s hr hs hf
    obtain ⟨hhead, htail⟩ := List.forall_mem_cons.1 hf
    have hrun := ih (State.complete { s with cmdIn := (fs.map Prod.fst).flatten } (performCommand f.2 s.ctx)) hr rfl htail
    rw [List.length_cons, runSteps_succ _ (step_of_isFrameOf hr hhead hs), hrun]
    simp [performCommands]

/-- Settles O3, from the cases of the decoder's answer. -/
theorem decodedCommandHasOneFrame : Obligations.DecodedCommandHasOneFrame := fun _ _ _ => wf_and_eq_of_decodeFrame_command

/-- Settles O4, opcode byte by opcode byte; with eight bytes there, the sum of R78 is the number the decoder reads. -/
theorem decoderFollowsOpcodeByte : Obligations.DecoderFollowsOpcodeByte := by
  intro b r len
  have hlen (h8 : 8 ≤ r.length) : len = beNat (r.take 8) := sum_getD_eq_beNat_take h8
  refine ⟨rfl, ?_, ?_, ?_, ?_, ?_, ?_, ?_⟩
  · rintro rfl; exact decodeFrame_init256 r
  · rintro rfl; exact decodeFrame_finalize r
  · intro hb hshort
    have hshort' : r.length < 8 ∨ r.length < 8 + beNat (r.take 8) := by
      by_cases h8 : 8 ≤ r.length
      · rwa [← hlen h8]
      · exact .inl (by omega)
    rcases hb with rfl | rfl
    · exact decodePayload_of_short .update hshort'
    · exact decodePayload_of_short .digest hshort'
  · rintro rfl hlong
    rw [hlen (by omega)] at hlong ⊢
    exact decodePayload_of_long .update hlong
  · rintro rfl hlong
    rw [hlen (by omega)] at hlong ⊢
    exact decodePayload_of_long .digest hlong
  · rintro rfl
    cases hv : Config.iv224 with
    | some iv => exact (decodeFrame_init224 r).trans (if_pos (by simp [variantPresent, hv]))
    | none => exact ⟨_, (decodeFrame_init224 r).trans (if_neg (not_variantPresent_v224_iff.2 hv))⟩
  · intro h5; exact decodeFrame_illegal b r ((five_le_toNat_iff b).1 h5)

/-- Settles O5: neither a whole frame's command nor an illegal byte's reason depends on the bytes behind the frame. -/
theorem laterBytesLeaveDecodingAlone : Obligations.LaterBytesLeaveDecodingAlone := fun _ more =>
  ⟨fun _ _ h => decodeFrame_command_append h more, fun _ _ h => decodeFrame_illegal_append h more⟩

/-- Settles O7: the illegal bytes are those of the condition, and the step answers them without the tail. -/
theorem illegalByteIsAnswered : Obligations.IllegalByteIsAnswered := by
  intro s b rest hr hs
  rw [hs]
  split
  case isTrue hb =>
    obtain ⟨why, r, h⟩ := (exists_decodeFrame_illegal_iff b rest).2 hb
    exact step_of_illegal hr (hs ▸ decodeFrame_illegal_of_cons h rest)
  case isFalse hb => exact fun why r h => hb ((exists_decodeFrame_illegal_iff b rest).1 ⟨why, r, h⟩)

/-- Settles O12: the head of `CMD_IN` is no whole frame, or the frame that the step consumes and answers. -/
theorem oneResponsePerFrame : Obligations.OneResponsePerFrame := by
  intro s hr
  rcases incomplete_or_isFrameOf s.cmdIn with h | ⟨frame, rest, k, hf, hs⟩
  · exact .inl ⟨⟨hr, h⟩, step_of_incomplete hr h⟩
  · exact .inr ⟨frame, k, _, step_of_isFrameOf hr hf hs, hf, hs, rfl, rfl, hr, rfl⟩

/-- Settles O1, by evaluating the decoder on the ten frames. -/
theorem knownFramesDecode : Obligations.KnownFramesDecode := by
  unfold Obligations.KnownFramesDecode
  decide

/-- Settles O6: both sides complete the decoded command. -/
theorem stepPerformsDecodedCommand : Obligations.StepPerformsDecodedCommand := by
  intro s i rest hr hd
  rw [step_of_command hr hd, exec_eq_complete]

/-- Settles O8, by induction on the number of steps. -/
theorem waitingChangesNothing : Obligations.WaitingChangesNothing := by
  intro s k ⟨hr, hd⟩
  induction k with
  | zero => rfl
  | succ k ih => rw [runSteps_succ k (step_of_incomplete hr hd), ih]

/-- Settles O9, by the four cases of a step. -/
theorem everyStepHasANextState : Obligations.EveryStepHasANextState := by
  intro s
  rcases step_cases s with ⟨-, e⟩ | ⟨-, _, _, -, -, -, e⟩ | ⟨-, _, _, _, -, -, e⟩ | ⟨-, -, e⟩ <;> exact ⟨_, e⟩

end Sys2Proof.Machine

/-! SUPPORT. The primitives bit by bit (R102 to R109) and the counter as a number (R110). -/

namespace Sys2Proof.Machine

/-! ## Rotation and shift -/

/-- On its domain the rotation of R102 is the library's. -/
theorem rotr_eq_rotateRight (x : Word) {n : Nat} (hn : n < 32) : rotr x n = x.rotateRight n := by
  rw [BitVec.rotateRight_def, Nat.mod_eq_of_lt hn, rotr]

theorem getLsbD_rotr (x : Word) {n i : Nat} (hn : n < 32) (hi : i < 32) :
    (rotr x n).getLsbD i = x.getLsbD ((i + n) % 32) := by
  rw [rotr_eq_rotateRight x hn, BitVec.getLsbD_rotateRight, Nat.mod_eq_of_lt hn]
  by_cases h : i < 32 - n
  · -- the bit comes from above, by `n`
    rw [Nat.mod_eq_of_lt (by omega), Nat.add_comm i n]
    simp [h]
  · -- the bit wraps around
    have hmod : (i + n) % 32 = i - (32 - n) := by omega
    simp [h, hi, hmod]

theorem toNat_shr (x : Word) (n : Nat) : (shr x n).toNat = x.toNat / 2 ^ n := by
  rw [shr, BitVec.toNat_ushiftRight, Nat.shiftRight_eq_div_pow]

theorem rotr_xor (x y : Word) {n : Nat} (hn : n < 32) : rotr (x ^^^ y) n = rotr x n ^^^ rotr y n := by
  refine BitVec.eq_of_getLsbD_eq fun i hi => ?_
  simp only [BitVec.getLsbD_xor, getLsbD_rotr _ hn hi]

theorem shr_xor (x y : Word) (n : Nat) : shr (x ^^^ y) n = shr x n ^^^ shr y n :=
  BitVec.ushiftRight_xor_distrib x y n

/-! ## The sigma functions bit by bit -/

theorem getLsbD_bigSigma0 (x : Word) {i : Nat} (hi : i < 32) :
    (bigSigma0 x).getLsbD i =
      (x.getLsbD ((i + 2) % 32) ^^ x.getLsbD ((i + 13) % 32) ^^ x.getLsbD ((i + 22) % 32)) := by
  simp (disch := omega) only [bigSigma0, BitVec.getLsbD_xor, getLsbD_rotr]

theorem getLsbD_bigSigma1 (x : Word) {i : Nat} (hi : i < 32) :
    (bigSigma1 x).getLsbD i =
      (x.getLsbD ((i + 6) % 32) ^^ x.getLsbD ((i + 11) % 32) ^^ x.getLsbD ((i + 25) % 32)) := by
  simp (disch := omega) only [bigSigma1, BitVec.getLsbD_xor, getLsbD_rotr]

theorem getLsbD_smallSigma0 (x : Word) {i : Nat} (hi : i < 32) :
    (smallSigma0 x).getLsbD i = (x.getLsbD ((i + 7) % 32) ^^ x.getLsbD ((i + 18) % 32) ^^
      (if i + 3 < 32 then x.getLsbD (i + 3) else false)) := by
  simp (disch := omega) only [smallSigma0, BitVec.getLsbD_xor, getLsbD_rotr, getLsbD_shr]

theorem getLsbD_smallSigma1 (x : Word) {i : Nat} (hi : i < 32) :
    (smallSigma1 x).getLsbD i = (x.getLsbD ((i + 17) % 32) ^^ x.getLsbD ((i + 19) % 32) ^^
      (if i + 10 < 32 then x.getLsbD (i + 10) else false)) := by
  simp (disch := omega) only [smallSigma1, BitVec.getLsbD_xor, getLsbD_rotr, getLsbD_shr]

/-! ## The sigma functions are linear: their terms are, and `^^^` is commutative and associative -/

theorem bigSigma0_xor (x y : Word) : bigSigma0 (x ^^^ y) = bigSigma0 x ^^^ bigSigma0 y := by
  simp (disch := omega) only [bigSigma0, rotr_xor]
  ac_rfl

theorem bigSigma1_xor (x y : Word) : bigSigma1 (x ^^^ y) = bigSigma1 x ^^^ bigSigma1 y := by
  simp (disch := omega) only [bigSigma1, rotr_xor]
  ac_rfl

theorem smallSigma0_xor (x y : Word) : smallSigma0 (x ^^^ y) = smallSigma0 x ^^^ smallSigma0 y := by
  simp (disch := omega) only [smallSigma0, rotr_xor, shr_xor]
  ac_rfl

theorem smallSigma1_xor (x y : Word) : smallSigma1 (x ^^^ y) = smallSigma1 x ^^^ smallSigma1 y := by
  simp (disch := omega) only [smallSigma1, rotr_xor, shr_xor]
  ac_rfl

/-! ## `Ch` and `Maj`: each expression, bit by bit, has the truth table of the choice or of the majority -/

theorem getLsbD_ch (x y z : Word) {i : Nat} (hi : i < 32) :
    (ch x y z).getLsbD i = if x.getLsbD i then y.getLsbD i else z.getLsbD i := by
  cases hx : x.getLsbD i <;> simp [ch, hx, hi, -BitVec.getLsbD_eq_getElem]

theorem getLsbD_chSelect (x y z : Word) (i : Nat) :
    (chSelect x y z).getLsbD i = if x.getLsbD i then y.getLsbD i else z.getLsbD i := by
  cases hx : x.getLsbD i <;> simp [chSelect, hx, Bool.xor_left_comm]

theorem getLsbD_chOr (x y z : Word) {i : Nat} (hi : i < 32) :
    (chOr x y z).getLsbD i = if x.getLsbD i then y.getLsbD i else z.getLsbD i := by
  cases hx : x.getLsbD i <;> simp [chOr, hx, hi, -BitVec.getLsbD_eq_getElem]

theorem getLsbD_maj (x y z : Word) (i : Nat) :
    (maj x y z).getLsbD i =
      decide (2 ≤ (x.getLsbD i).toNat + (y.getLsbD i).toNat + (z.getLsbD i).toNat) := by
  simp only [maj, BitVec.getLsbD_xor, BitVec.getLsbD_and]
  generalize x.getLsbD i = a, y.getLsbD i = b, z.getLsbD i = c
  decide +revert

theorem getLsbD_majOr (x y z : Word) (i : Nat) :
    (majOr x y z).getLsbD i =
      decide (2 ≤ (x.getLsbD i).toNat + (y.getLsbD i).toNat + (z.getLsbD i).toNat) := by
  simp only [majOr, BitVec.getLsbD_or, BitVec.getLsbD_and]
  generalize x.getLsbD i = a, y.getLsbD i = b, z.getLsbD i = c
  decide +revert

theorem getLsbD_majXor (x y z : Word) (i : Nat) :
    (majXor x y z).getLsbD i =
      decide (2 ≤ (x.getLsbD i).toNat + (y.getLsbD i).toNat + (z.getLsbD i).toNat) := by
  simp only [majXor, BitVec.getLsbD_xor, BitVec.getLsbD_and]
  generalize x.getLsbD i = a, y.getLsbD i = b, z.getLsbD i = c
  decide +revert

theorem ch_eq_chSelect (x y z : Word) : ch x y z = chSelect x y z :=
  BitVec.eq_of_getLsbD_eq fun i hi => (getLsbD_ch x y z hi).trans (getLsbD_chSelect x y z i).symm

theorem ch_eq_chOr (x y z : Word) : ch x y z = chOr x y z :=
  BitVec.eq_of_getLsbD_eq fun _ hi => (getLsbD_ch x y z hi).trans (getLsbD_chOr x y z hi).symm

theorem maj_eq_majOr (x y z : Word) : maj x y z = majOr x y z :=
  BitVec.eq_of_getLsbD_eq fun i _ => (getLsbD_maj x y z i).trans (getLsbD_majOr x y z i).symm

theorem maj_eq_majXor (x y z : Word) : maj x y z = majXor x y z :=
  BitVec.eq_of_getLsbD_eq fun i _ => (getLsbD_maj x y z i).trans (getLsbD_majXor x y z i).symm

/-! ## Counter arithmetic -/

theorem toNat_addLength (total : Dword) (n : Nat) : (addLength total n).toNat = (total.toNat + n) % 2 ^ 64 := by
  rw [addLength, BitVec.toNat_add, BitVec.toNat_ofNat, Nat.add_mod_mod]

theorem fillLevel_eq_toNat_extractLsb' (total : Dword) : fillLevel total = (total.extractLsb' 0 6).toNat := by
  rw [BitVec.extractLsb'_toNat]; rfl

theorem toNat_bitLength (total : Dword) : (bitLength total).toNat = (total.toNat * 8) % 2 ^ 64 :=
  BitVec.toNat_mul total 8

theorem bitLength_eq_shiftLeft (total : Dword) : bitLength total = total <<< 3 :=
  (BitVec.shiftLeft_eq_mul_twoPow total 3).symm

end Sys2Proof.Machine

/-! The obligations of the family `40_primitives.md`. -/

namespace Sys2Proof.Machine

/-- Settles O49. -/
theorem rotateMovesBits : Obligations.RotateMovesBits := fun x _ _ _ hn hi => getLsbD_rotr x hn hi

/-- Settles O50: the expressions agree because each has the same bits. -/
theorem choiceAndMajority : Obligations.ChoiceAndMajority := fun x y z =>
  ⟨fun _ hi => getLsbD_ch x y z hi, fun i _ => getLsbD_maj x y z i, ch_eq_chSelect x y z, ch_eq_chOr x y z,
    maj_eq_majOr x y z, maj_eq_majXor x y z⟩

/-- Settles O51. -/
theorem sigmasAreLinear : Obligations.SigmasAreLinear :=
  ⟨fun x _ hi => ⟨getLsbD_bigSigma0 x hi, getLsbD_bigSigma1 x hi, getLsbD_smallSigma0 x hi, getLsbD_smallSigma1 x hi⟩,
    toNat_shr,
    fun x y => ⟨bigSigma0_xor x y, bigSigma1_xor x y, smallSigma0_xor x y, smallSigma1_xor x y⟩⟩

/-- Settles O55. -/
theorem counterArithmetic : Obligations.CounterArithmetic := fun total n =>
  ⟨toNat_addLength total n, rfl, fillLevel_eq_toNat_extractLsb' total, toNat_bitLength total, bitLength_eq_shiftLeft total⟩

end Sys2Proof.Machine

/-! SUPPORT. The schedule and its rolling window word by word (R121 to R123), the slots by the roles they play (R131), and the
round constants as cube roots (R127). -/

namespace Sys2Proof.Machine

/-! ## The schedule, word by word -/

/-- The first sixteen schedule words are the block read big-endian (R121). -/
theorem getD_firstWords (blk : List Byte) {j : Nat} (hj : j < 16) :
    (firstWords blk).getD j 0 =
      be32 (blk.getD (4 * j) 0) (blk.getD (4 * j + 1) 0) (blk.getD (4 * j + 2) 0) (blk.getD (4 * j + 3) 0) := by
  simp [firstWords, hj]

theorem getD_schedule_of_lt (blk : List Byte) {j : Nat} (hj : j < 16) :
    (schedule blk).getD j 0 = (firstWords blk).getD j 0 :=
  extendSchedule_old 48 _ j (by simpa using hj)

/-- The recurrence of R122. -/
theorem getD_schedule_recurrence (blk : List Byte) {t : Nat} (h16 : 16 ≤ t) (h64 : t < 64) :
    (schedule blk).getD t 0 =
      smallSigma1 ((schedule blk).getD (t - 2) 0) + (schedule blk).getD (t - 7) 0 +
        smallSigma0 ((schedule blk).getD (t - 15) 0) + (schedule blk).getD (t - 16) 0 :=
  extendSchedule_new 48 (firstWords blk) t (by simp) (by simpa using h16) (by simpa using h64)

/-! ## The rolling window -/

theorem rollingAt_congr (wc : Vector Word 16) {i j : Nat} (h : i % 16 = j % 16) : rollingAt wc i = rollingAt wc j := by
  simp only [rollingAt, h]

theorem rollingAt_rollingStart (blk : List Byte) {j : Nat} (hj : j < 16) :
    rollingAt (rollingStart blk) j = (schedule blk).getD j 0 := by
  rw [getD_schedule_of_lt blk hj]
  simp only [rollingAt, rollingStart, Vector.getElem_ofFn, Nat.mod_eq_of_lt hj]

theorem rollingAt_rollingStep_same (wc : Vector Word 16) (t : Nat) :
    rollingAt (rollingStep wc t) t =
      smallSigma1 (rollingAt wc (t - 2)) + rollingAt wc (t - 7) + smallSigma0 (rollingAt wc (t - 15)) + rollingAt wc t :=
  Vector.getElem_set_self _

theorem rollingAt_rollingStep_of_ne (wc : Vector Word 16) {i t : Nat} (h : t % 16 ≠ i % 16) :
    rollingAt (rollingStep wc t) i = rollingAt wc i :=
  Vector.getElem_set_ne _ _ h

theorem rollingWindow_succ (blk : List Byte) {t : Nat} (h : 16 ≤ t + 1) :
    rollingWindow blk (t + 1) = rollingStep (rollingWindow blk t) (t + 1) := by
  rw [rollingWindow, if_neg (by omega)]

/-- The window holds the sixteen schedule words up to `W[t]`, or `W[0..15]` before the first update: "each `W[i]` is only ever
referenced within a 16-step window" (R123). -/
theorem rollingAt_rollingWindow (blk : List Byte) {t : Nat} (ht : t < 64) {i : Nat} (hlow : t ≤ i + 15)
    (hhigh : i ≤ max t 15) : rollingAt (rollingWindow blk t) i = (schedule blk).getD i 0 := by
  induction t generalizing i with
  | zero => exact rollingAt_rollingStart blk (by omega)
  | succ t ih =>
    by_cases hstart : t + 1 < 16
    · rw [rollingWindow_start blk _ hstart]
      exact rollingAt_rollingStart blk (by omega)
    rw [rollingWindow_succ blk (by omega)]
    rcases Nat.eq_or_lt_of_le (show i ≤ t + 1 by omega) with rfl | hi
    · -- the new word: the overwritten slot held `W[t + 1 - 16]`
      have hold : rollingAt (rollingWindow blk t) (t + 1) = (schedule blk).getD (t + 1 - 16) 0 := by
        rw [rollingAt_congr _ (show (t + 1) % 16 = (t + 1 - 16) % 16 by omega)]
        exact ih (by omega) (by omega) (by omega)
      rw [rollingAt_rollingStep_same, hold, getD_schedule_recurrence blk (by omega) ht]
      rw [ih (by omega) (i := t + 1 - 2) (by omega) (by omega), ih (by omega) (i := t + 1 - 7) (by omega) (by omega),
        ih (by omega) (i := t + 1 - 15) (by omega) (by omega)]
    · rw [rollingAt_rollingStep_of_ne _ (by omega)]
      exact ih (by omega) (by omega) (by omega)

theorem rollingWord_eq_getD_schedule (blk : List Byte) {t : Nat} (ht : t < 64) :
    rollingWord blk t = (schedule blk).getD t 0 :=
  rollingAt_rollingWindow blk ht (by omega) (by omega)

theorem map_rollingWord_eq_schedule (blk : List Byte) : (List.range 64).map (rollingWord blk) = schedule blk := by
  refine List.ext_getElem (by simp [length_schedule]) fun t h₁ h₂ => ?_
  have ht : t < 64 := by simpa using h₁
  rw [List.getElem_map, List.getElem_range, rollingWord_eq_getD_schedule blk ht, List.getD_eq_getElem _ _ h₂]

/-! ## The slots and their roles -/

/-- From one round to the next every role moves one slot down: role `r + 1` is played by the slot that played role `r` (R131). -/
theorem slotAt_succ_succ (s : Vector Word 8) (r t : Nat) : slotAt s (r + 1) (t + 1) = slotAt s r t := by
  have h : slotOf (r + 1) (t + 1) = slotOf r t := by unfold slotOf; omega
  simp only [slotAt, h]

/-- The slot of role `h` plays role `a` in the next round (R131). -/
theorem slotAt_zero_succ (s : Vector Word 8) (t : Nat) : slotAt s 0 (t + 1) = slotAt s 7 t := by
  have h : slotOf 0 (t + 1) = slotOf 7 t := by unfold slotOf; omega
  simp only [slotAt, h]

/-- In one round different roles are played by different slots (R131). -/
theorem slotOf_ne {r r' : Nat} (hr : r < 8) (hr' : r' < 8) (hne : r ≠ r') (t : Nat) : slotOf r t ≠ slotOf r' t := by
  unfold slotOf; omega

/-- The working variables that the slots hold before round `t`, each in the slot of its role (R30, R131). -/
def slotRoles (s : Vector Word 8) (t : Nat) : Working :=
  ⟨slotAt s 0 t, slotAt s 1 t, slotAt s 2 t, slotAt s 3 t, slotAt s 4 t, slotAt s 5 t, slotAt s 6 t, slotAt s 7 t⟩

/-- A slot round writes role `h`. -/
theorem slotAt_slotRound_seven (s : Vector Word 8) (t : Nat) (kt wt : Word) :
    slotAt (slotRound s t kt wt) 7 t = (sourceRound (slotRoles s t) kt wt).a :=
  Vector.getElem_set_self _

/-- A slot round writes role `d`. -/
theorem slotAt_slotRound_three (s : Vector Word 8) (t : Nat) (kt wt : Word) :
    slotAt (slotRound s t kt wt) 3 t = (sourceRound (slotRoles s t) kt wt).e :=
  (Vector.getElem_set_ne (slotOf_lt 7 t) _ (slotOf_ne (by decide) (by decide) (by decide) t)).trans (Vector.getElem_set_self _)

/-- A slot round leaves the other six roles alone: "nothing moves" (R131). -/
theorem slotAt_slotRound_of_ne (s : Vector Word 8) (t : Nat) (kt wt : Word) {r : Nat} (hr : r < 8) (h3 : r ≠ 3)
    (h7 : r ≠ 7) : slotAt (slotRound s t kt wt) r t = slotAt s r t :=
  (Vector.getElem_set_ne (slotOf_lt 7 t) _ (slotOf_ne (by decide) hr h7.symm t)).trans
    (Vector.getElem_set_ne _ _ (slotOf_ne (by decide) hr h3.symm t))

/-- One slot round is one source round on the roles (R125, R131). -/
theorem slotRoles_slotRound (s : Vector Word 8) (t : Nat) (kt wt : Word) :
    slotRoles (slotRound s t kt wt) (t + 1) = sourceRound (slotRoles s t) kt wt := by
  rw [slotRoles]
  simp only [slotAt_zero_succ, slotAt_succ_succ, slotAt_slotRound_seven, slotAt_slotRound_three]
  simp (disch := decide) only [slotAt_slotRound_of_ne]
  rfl

/-- Slot rounds from `t` on are source rounds on the roles. -/
theorem slotRoles_slotRounds (kws : List (Word × Word)) (s : Vector Word 8) (t : Nat) :
    slotRoles (slotRounds s t kws) (t + kws.length) = rounds (slotRoles s t) kws := by
  induction kws generalizing s t with
  | nil => rfl
  | cons kw kws ih =>
    have hlen : t + (kw :: kws).length = t + 1 + kws.length := by rw [List.length_cons]; omega
    rw [hlen, slotRounds, ih, slotRoles_slotRound]
    rfl

/-- Before round 0 and after round 63 role `r` is slot `r`, so the sum over the slots is the sum over the roles (R128, R131). -/
theorem ofFn_add_eq_feedForward (S : HashState) (s : Vector Word 8) :
    (Vector.ofFn fun i : Fin 8 => S[i] + s[i]) = feedForward S (slotRoles s 64) := by
  ext i hi
  interval_cases i <;> simp [feedForward, slotRoles, slotAt, slotOf]

theorem compressRollingSlots_eq_compress (S : HashState) (blk : List Byte) : compressRollingSlots S blk = compress S blk := by
  have hrounds := slotRoles_slotRounds (K.zip (schedule blk)) S 0
  have hlen : 0 + (K.zip (schedule blk)).length = 64 := by
    rw [List.length_zip, length_schedule]; rfl
  rw [hlen] at hrounds
  rw [compressRollingSlots, map_rollingWord_eq_schedule, ofFn_add_eq_feedForward, hrounds]
  rfl

/-! ## The textbook round -/

/-- `T1 + T2` and the source's sum differ in the brackets only (R125, R126). -/
theorem roundTextbook_eq_sourceRound (w : Working) (kt wt : Word) : roundTextbook w kt wt = sourceRound w kt wt := by
  simp only [roundTextbook, sourceRound, roundT1, BitVec.add_assoc]

/-! ## The round constants -/

/-- The round constant of a prime: the first 32 bits of the fractional part of its cube root (R127). -/
def cubeRootWord (p : Nat) : Nat := Nat.nthRoot 3 (p * 2 ^ 96) % 2 ^ 32

theorem map_toNat_K : K.map BitVec.toNat = Laws.primes64.map cubeRootWord := by decide +kernel

theorem length_K : K.length = 64 := rfl

theorem toNat_getD_K {t : Nat} (ht : t < 64) : (K.getD t 0).toNat = cubeRootWord (Nat.nth Nat.Prime t) := by
  have hzero : (0 : Word).toNat = cubeRootWord 0 := by decide
  calc (K.getD t 0).toNat
      = (K.map BitVec.toNat).getD t (0 : Word).toNat := (List.getD_map _ 0 BitVec.toNat).symm
    _ = (Laws.primes64.map cubeRootWord).getD t (cubeRootWord 0) := by rw [map_toNat_K, hzero]
    _ = cubeRootWord (Laws.primes64.getD t 0) := List.getD_map _ 0 cubeRootWord
    _ = cubeRootWord (Nat.nth Nat.Prime t) := by rw [Laws.nth_prime t ht]

end Sys2Proof.Machine

/-! The obligations of the family `41_compress.md`. -/

namespace Sys2Proof.Machine

/-- Settles O45: the rolling schedule is the schedule, and the slots run through the source's rounds by their roles. -/
theorem rollingSlotCompressIsIdentical : Obligations.RollingSlotCompressIsIdentical := compressRollingSlots_eq_compress

/-- Settles O42. -/
theorem scheduleRecurrence : Obligations.ScheduleRecurrence := fun blk =>
  ⟨length_schedule blk, fun _ hj => (getD_schedule_of_lt blk hj).trans (getD_firstWords blk hj),
    fun _ h16 h64 => getD_schedule_recurrence blk h16 h64⟩

/-- Settles O43. -/
theorem rollingScheduleIsIdentical : Obligations.RollingScheduleIsIdentical := fun blk _ ht =>
  rollingWord_eq_getD_schedule blk ht

/-- Settles O46: the root is the library's floor of the cube root. -/
theorem roundConstantsAreCubeRoots : Obligations.RoundConstantsAreCubeRoots :=
  ⟨length_K, fun t ht => ⟨Nat.nthRoot 3 (Nat.nth Nat.Prime t * 2 ^ 96), Nat.pow_nthRoot_le (.inl (by decide)),
    Nat.lt_pow_nthRoot_add_one (by decide) _, toNat_getD_K ht⟩⟩

/-- Settles O44. -/
theorem textbookRoundIsIdentical : Obligations.TextbookRoundIsIdentical := roundTextbook_eq_sourceRound

end Sys2Proof.Machine

/-! SUPPORT. `INIT` on the machine and twice in a row (R150 to R154), and the initial hash values as square roots of primes
(R151, R152). -/

namespace Sys2Proof.Machine

/-! ## `INIT` -/

/-- `INIT` of a variant the engine has, from every state (R150, R153). -/
theorem exec_init_present {v : Variant} {iv : HashState} (h : initialHash v = some iv) (s : State) :
    exec (.init v) s = .next { s with
      ctx := { H := iv, buffer := s.ctx.buffer, total := 0, dlen := digestLengthOf v, phase := .active }
      rspOut := s.rspOut ++ [0x00] } := by
  rw [exec_eq_complete, perform, performInit_present h]
  rfl

/-- `INIT` of a variant the engine lacks is answered as the illegal frame is (R80, log 5). -/
theorem exec_init_absent {v : Variant} (h : initialHash v = none) (s : State) :
    exec (.init v) s = .next { s with rspOut := s.rspOut ++ [0x03] } := by
  rw [exec_eq_complete, perform, performInit_absent h]
  rfl

/-- A second `INIT` changes nothing in the context: it writes what stands there (R154). -/
theorem performInit_performInit (v : Variant) (c : Context) : performInit v (performInit v c).1 = performInit v c := by
  cases h : initialHash v with
  | none => rw [performInit_absent h, performInit_absent h]
  | some iv => simp only [performInit_present h]

/-! ## The initial hash values -/

theorem toNat_getElem_iv256 : ∀ i, ∀ h : i < 8,
    iv256[i].toNat = Nat.sqrt (Laws.primes64.getD i 0 * 2 ^ 64) % 2 ^ 32 := by decide +kernel

theorem toNat_getElem_iv224Default : ∀ i, ∀ h : i < 8,
    iv224Default[i].toNat = Nat.sqrt (Laws.primes64.getD (8 + i) 0 * 2 ^ 128) % 2 ^ 32 := by decide +kernel

end Sys2Proof.Machine

/-! The obligations of the family `42_init.md`. -/

namespace Sys2Proof.Machine

/-- Settles O47: the words are the roots of the listed primes, and those are the first eight. -/
theorem initialHashIsSquareRoots : Obligations.InitialHashIsSquareRoots := by
  intro i hi
  rw [Laws.nth_prime i (by omega)]
  exact toNat_getElem_iv256 i hi

/-- Settles O48: the same for the ninth to sixteenth primes, 32 bits further right. -/
theorem defaultIv224IsSquareRoots : Obligations.DefaultIv224IsSquareRoots := by
  intro i hi
  rw [Laws.nth_prime (8 + i) (by omega)]
  exact toNat_getElem_iv224Default i hi

/-- Settles O16. -/
theorem init256OpensEmptyMessage : Obligations.Init256OpensEmptyMessage := exec_init_present rfl

/-- Settles O17: with the parameter present the byte decodes and the command loads it; absent, neither. -/
theorem init224DependsOnParameter : Obligations.Init224DependsOnParameter := by
  intro s
  split
  next iv hiv =>
    have hpresent : variantPresent .v224 = true := by simp [variantPresent, hiv]
    exact ⟨fun rest => (decodeFrame_init224 rest).trans (if_pos hpresent), exec_init_present (v := .v224) hiv s⟩
  next hnone =>
    have habsent : ¬ variantPresent .v224 = true := not_variantPresent_v224_iff.2 hnone
    exact ⟨fun rest => (decodeFrame_init224 rest).trans (if_neg habsent), exec_init_absent (v := .v224) hnone s⟩

/-- Settles O18: what `INIT` leaves agrees for any two contexts, and a second `INIT` writes the same again. -/
theorem initForgetsEarlierMessages : Obligations.InitForgetsEarlierMessages := by
  intro v s₁ s₂ hv hcmd hout hreset
  obtain ⟨iv, hiv⟩ := initialHash_of_present hv
  obtain ⟨hctx, hresp⟩ := performInit_agree hiv s₁.ctx s₂.ctx
  have hagree : (s₁.complete (performInit v s₁.ctx)).Agree (s₂.complete (performInit v s₂.ctx)) :=
    ⟨hctx, hcmd, by simp [hout, hresp], hreset⟩
  exact ⟨_, _, _, exec_eq_complete _ s₁, exec_eq_complete _ s₂, hagree, exec_eq_complete _ _,
    congrArg Prod.fst (performInit_performInit v s₁.ctx)⟩

end Sys2Proof.Machine

/-! SUPPORT. `UPDATE` on an ACTIVE context by fill level and payload length (R160 to R167), and a message in fragments (R165,
R168). -/

namespace Sys2Proof.Machine

/-! ## Blocks and live bytes -/

/-- An open tail and enough bytes to complete its block: that block first, then the blocks of the rest (R162, R163). -/
theorem messageBlocks_append_of_fills {m r : List Byte} (hm : m.length ≤ 64) (h : 64 ≤ m.length + r.length) :
    messageBlocks (m ++ r) = (m ++ r.take (64 - m.length)) :: messageBlocks (r.drop (64 - m.length)) := by
  have hblock : (m ++ r.take (64 - m.length)).length = 64 := by simp; omega
  rw [← messageBlocks_block hblock, List.append_assoc, List.take_append_drop]

theorem liveBytes_eq_nil {c : Context} (h : fillLevel c.total = 0) : liveBytes c = [] :=
  List.length_eq_zero_iff.1 ((length_liveBytes c).trans h)

/-- The fill level and the live bytes, as the statements write them out (R110 (b), R26). -/
theorem fillLevel_eq_mod (total : Dword) : fillLevel total = total.toNat % 64 := rfl

theorem liveBytes_eq_bufRead (c : Context) : liveBytes c = bufRead c.buffer 0 (fillLevel c.total) := rfl

theorem topUpCount_le (fill n : Nat) : topUpCount fill n ≤ n := by
  unfold topUpCount
  split
  · exact Nat.zero_le n
  · exact Nat.min_le_right _ n

/-- Step 1 copies nothing into an empty buffer (R162). -/
theorem topUpBuffer_of_empty {c : Context} (h : fillLevel c.total = 0) (data : List Byte) : topUpBuffer c data = c.buffer := by
  simp [topUpBuffer, topUpCount, h]

/-! ## `UPDATE` in phase ACTIVE -/

theorem exec_update_active {s : State} (h : s.ctx.phase = .active) (data : List Byte) :
    exec (.update data) s = .next (s.complete (updateActive data s.ctx)) := by
  rw [exec_eq_complete, perform, performUpdate_active h]

/-- The two writes to the buffer: the top-up at the fill level, then the remainder at position 0 (R162, R164). -/
theorem updateActive_buffer (data : List Byte) (c : Context) :
    (updateActive data c).1.buffer =
      bufWrite (topUpBuffer c data) 0 (messageTail (data.drop (topUpCount (fillLevel c.total) data.length))) := rfl

theorem fillLevel_updateActive (data : List Byte) (c : Context) :
    fillLevel (updateActive data c).1.total = (fillLevel c.total + data.length) % 64 :=
  fillLevel_addLength c.total data.length

/-- The live bytes after `UPDATE`, as a read of the buffer at the new fill level (R164). -/
theorem bufRead_updateActive (data : List Byte) (c : Context) :
    bufRead (updateActive data c).1.buffer 0 ((fillLevel c.total + data.length) % 64) =
      messageTail (liveBytes c ++ data) := by
  rw [← (updateActive_spec data c).2, liveBytes, fillLevel_updateActive]

/-- With nothing buffered the blocks and the tail are those of the payload (R163, R164, R167). -/
theorem updateActive_spec_of_empty {c : Context} (h : fillLevel c.total = 0) (data : List Byte) :
    (updateActive data c).1.H = chain c.H (messageBlocks data) ∧
      bufRead (updateActive data c).1.buffer 0 (data.length % 64) = messageTail data := by
  have hH := (updateActive_spec data c).1
  have hread := bufRead_updateActive data c
  rw [liveBytes_eq_nil h, List.nil_append] at hH hread
  rw [h, Nat.zero_add] at hread
  exact ⟨hH, hread⟩

/-- An empty payload changes nothing (R161, R167). -/
theorem updateActive_nil (c : Context) : (updateActive [] c).1 = c := by
  have hfill : fillLevel c.total ≠ 64 := (fillLevel_lt c.total).ne
  have hcount : topUpCount (fillLevel c.total) 0 = 0 := Nat.le_zero.1 (topUpCount_le _ 0)
  simp [updateActive, topUpHash, topUpBuffer, hcount, hfill, absorbBlocks, addLength]

/-- A payload that leaves the block open: no compression (R167). -/
theorem updateActive_H_of_open {c : Context} {data : List Byte} (h : fillLevel c.total + data.length < 64) :
    (updateActive data c).1.H = c.H := by
  rw [(updateActive_spec data c).1, messageBlocks_short (by simpa [length_liveBytes] using h), chain_nil]

/-- A payload that leaves the block open stands behind the live bytes (R162, R164, R167). -/
theorem bufRead_updateActive_of_open {c : Context} {data : List Byte} (h : fillLevel c.total + data.length < 64) :
    bufRead (updateActive data c).1.buffer 0 (fillLevel c.total + data.length) = liveBytes c ++ data := by
  have hread := bufRead_updateActive data c
  rwa [Nat.mod_eq_of_lt h, messageTail_short (by simpa [length_liveBytes] using h)] at hread

/-- A payload that completes the block: it is compressed first, then the whole blocks of the rest (R162, R163). -/
theorem updateActive_H_of_fills {c : Context} {data : List Byte} (h : 64 ≤ fillLevel c.total + data.length) :
    (updateActive data c).1.H = chain (compress c.H (liveBytes c ++ data.take (64 - fillLevel c.total)))
      (messageBlocks (data.drop (64 - fillLevel c.total))) := by
  have hlen := length_liveBytes c
  have hfill := fillLevel_lt c.total
  rw [(updateActive_spec data c).1, messageBlocks_append_of_fills (by omega) (by omega), hlen, chain_cons]

/-- A payload that ends exactly with the block: one compression (R167). -/
theorem updateActive_H_of_exact {c : Context} {data : List Byte} (h : fillLevel c.total + data.length = 64) :
    (updateActive data c).1.H = compress c.H (liveBytes c ++ data) := by
  rw [updateActive_H_of_fills h.ge, List.take_of_length_le (by omega), List.drop_of_length_le (by omega),
    messageBlocks_short (by simp), chain_nil]

/-- A payload that ends exactly with a block leaves no remainder, so only the top-up writes the buffer (R164). -/
theorem updateActive_buffer_of_exact {c : Context} {data : List Byte} (h : fillLevel c.total + data.length = 64) :
    (updateActive data c).1.buffer = topUpBuffer c data := by
  have htail : messageTail (data.drop (topUpCount (fillLevel c.total) data.length)) = [] := by
    apply List.length_eq_zero_iff.1
    rw [length_messageTail, List.length_drop, topUpCount]
    split <;> omega
  rw [updateActive_buffer, htail, bufWrite_nil]

/-- Every byte of the buffer after `UPDATE`: the remainder, else the top-up, else as before (R162, R164). -/
theorem getElem_updateActive_buffer (data : List Byte) (c : Context) {k : Nat} (hk : k < 64) :
    (updateActive data c).1.buffer[k] =
      if k < (data.drop (topUpCount (fillLevel c.total) data.length)).length % 64 then
        (messageTail (data.drop (topUpCount (fillLevel c.total) data.length))).getD k 0
      else if fillLevel c.total ≤ k ∧ k < fillLevel c.total + topUpCount (fillLevel c.total) data.length then
        data.getD (k - fillLevel c.total) 0
      else c.buffer[k] := by
  have hcount := topUpCount_le (fillLevel c.total) data.length
  simp only [updateActive_buffer, topUpBuffer, getElem_bufWrite, length_messageTail, List.length_take,
    Nat.min_eq_left hcount, Nat.zero_le, true_and, Nat.zero_add, Nat.sub_zero]
  congr 1
  refine ite_congr rfl (fun hin => ?_) fun _ => rfl
  rw [List.getD_eq_getElem?_getD, List.getElem?_take_of_lt (by omega), ← List.getD_eq_getElem?_getD]

/-! ## A message in fragments -/

theorem Context.Agree.refl (c : Context) : c.Agree c := ⟨rfl, fun _ => ⟨rfl, rfl, rfl, rfl⟩⟩

theorem Context.Agree.symm {c₁ c₂ : Context} (h : c₁.Agree c₂) : c₂.Agree c₁ := by
  obtain ⟨hphase, hfields⟩ := h
  refine ⟨hphase.symm, fun hactive => ?_⟩
  obtain ⟨hH, htotal, hdlen, hlive⟩ := hfields (hphase.trans hactive)
  exact ⟨hH.symm, htotal.symm, hdlen.symm, hlive.symm⟩

theorem Context.Agree.trans {c₁ c₂ c₃ : Context} (h : c₁.Agree c₂) (h' : c₂.Agree c₃) : c₁.Agree c₃ := by
  obtain ⟨hphase, hfields⟩ := h
  obtain ⟨hphase', hfields'⟩ := h'
  refine ⟨hphase.trans hphase', fun hactive => ?_⟩
  obtain ⟨hH, htotal, hdlen, hlive⟩ := hfields hactive
  obtain ⟨hH', htotal', hdlen', hlive'⟩ := hfields' (hphase.symm.trans hactive)
  exact ⟨hH.trans hH', htotal.trans htotal', hdlen.trans hdlen', hlive.trans hlive'⟩

/-- Two fragments one after the other are their concatenation: the blocks of the first, then those of what it left open with
the second (R165). -/
theorem updateActive_append_agree (f g : List Byte) (c : Context) :
    (updateActive g (updateActive f c).1).1.Agree (updateActive (f ++ g) c).1 := by
  obtain ⟨hH, hlive⟩ := updateActive_spec f c
  obtain ⟨hH', hlive'⟩ := updateActive_spec g (updateActive f c).1
  obtain ⟨hHfg, hlivefg⟩ := updateActive_spec (f ++ g) c
  refine ⟨rfl, fun _ => ⟨?_, ?_, rfl, ?_⟩⟩
  · rw [hH', hH, hlive, hHfg, ← List.append_assoc, messageBlocks_append (liveBytes c ++ f) g, chain_append]
  · exact (addLength_add _ _ _).trans (by rw [← List.length_append]; rfl)
  · rw [hlive', hlive, hlivefg, ← List.append_assoc, messageTail_append (liveBytes c ++ f) g]

/-- The induction over bytes: feeding them one at a time is one `UPDATE` (R168). -/
theorem foldl_feedByte_agree (data : List Byte) (c : Context) :
    (data.foldl feedByte c).Agree (updateActive data c).1 := by
  induction data generalizing c with
  | nil => rw [updateActive_nil]; exact .refl c
  | cons b data ih =>
    rw [List.foldl_cons, ← updateActive_singleton]
    exact (ih _).trans (updateActive_append_agree [b] data c)

/-- The induction over fragments: their `UPDATE`s are one `UPDATE` of the whole (R165). -/
theorem performCommands_updates_agree (fragments : List (List Byte)) {c : Context} (hc : c.phase = .active) :
    (performCommands (fragments.map fun f => .instr (.update f)) c).1.Agree (updateActive fragments.flatten c).1 := by
  induction fragments generalizing c with
  | nil => rw [List.flatten_nil, updateActive_nil]; exact .refl c
  | cons f fs ih =>
    simp only [List.map_cons, performCommands, performCommand, perform, performUpdate_active hc]
    exact (ih (c := (updateActive f c).1) hc).trans (updateActive_append_agree f fs.flatten c)

/-- The last response is that of the last command, on the context the others leave. -/
theorem getLast?_performCommands_concat (ks : List Command) (k : Command) (c : Context) :
    (performCommands (ks ++ [k]) c).2.getLast? = some (performCommand k (performCommands ks c).1).2 := by
  induction ks generalizing c with
  | nil => rfl
  | cons k' ks ih => rw [List.cons_append, performCommands, List.getLast?_cons, ih]; rfl

/-- The last response of a message sent in fragments, by the whole message (R165, R193). -/
theorem getLast?_performCommands_fragments {v : Variant} (hv : variantPresent v = true) (fragments : List (List Byte))
    (c : Context) :
    (performCommands (.instr (.init v) :: fragments.map (fun f => .instr (.update f)) ++ [.instr .finalize]) c).2.getLast? =
      some (performFinalize (updateActive fragments.flatten (performInit v c).1).1).2 := by
  obtain ⟨iv, hiv⟩ := initialHash_of_present hv
  have hactive : (performInit v c).1.phase = .active := (represents_performInit hiv c).phase
  rw [getLast?_performCommands_concat]
  exact congrArg some (performFinalize_agree (performCommands_updates_agree fragments hactive)).2

end Sys2Proof.Machine

/-! The obligations of the family `43_update.md`. -/

namespace Sys2Proof.Machine

/-- Settles O23: two fragments agree with their concatenation, and all three states are ACTIVE. -/
theorem chunkingInvariance : Obligations.ChunkingInvariance := by
  intro s f₁ f₂ hp
  obtain ⟨hphase, hfields⟩ := updateActive_append_agree f₁ f₂ s.ctx
  obtain ⟨hH, htotal, hdlen, hlive⟩ := hfields hp
  exact ⟨_, _, _, exec_update_active hp f₁, exec_update_active (s := s.complete (updateActive f₁ s.ctx)) hp f₂,
    exec_update_active hp (f₁ ++ f₂), hH, htotal, hdlen, hphase, hlive⟩

/-- Settles O24: the last response depends on the concatenation only, and the whole message is one fragment. -/
theorem digestIndependentOfFragments : Obligations.DigestIndependentOfFragments := by
  intro v fragments c hv
  have hwhole := getLast?_performCommands_fragments hv [fragments.flatten] c
  rw [List.flatten_singleton] at hwhole
  exact (getLast?_performCommands_fragments hv fragments c).trans hwhole.symm

/-- Settles O19. -/
theorem updateAppendsToMessage : Obligations.UpdateAppendsToMessage := by
  intro s data hp
  obtain ⟨hH, hlive⟩ := updateActive_spec data s.ctx
  exact ⟨_, exec_update_active hp data, toNat_addLength _ _, hH, hlive, rfl, hp, rfl, rfl, rfl, rfl⟩

/-- Settles O20. -/
theorem updateWritesOnlyTopUpAndRemainder : Obligations.UpdateWritesOnlyTopUpAndRemainder := fun s data hp =>
  ⟨_, exec_update_active hp data, fun _ hk => getElem_updateActive_buffer data s.ctx hk⟩

/-- Settles O21, row by row: no payload; an empty buffer with a payload below a block, of a block, of any length; a filled
buffer left open, exactly completed, or completed with more behind it; the counter's wrap. -/
theorem updateCornerCases : Obligations.UpdateCornerCases := by
  intro s data hp
  have hfill := fillLevel_lt s.ctx.total
  refine ⟨_, exec_update_active hp data, ?_⟩
  simp only [State.complete_ctx, ← fillLevel_eq_mod, fillLevel_updateActive, ← liveBytes_eq_bufRead]
  refine ⟨fun hn => ?_, fun ⟨h0, hn⟩ => ?_, fun ⟨h0, hn⟩ => ?_, fun h0 => ?_, fun ⟨_, hn⟩ => ?_,
    fun ⟨h0, hn⟩ => ?_, fun ⟨_, hn⟩ => ?_, fun ⟨hwrap, hn⟩ => ?_⟩
  · rw [List.length_eq_zero_iff.1 hn, updateActive_nil]
  · obtain ⟨hH, hread⟩ := updateActive_spec_of_empty h0 data
    rw [messageBlocks_short hn, chain_nil] at hH
    rw [Nat.mod_eq_of_lt hn, messageTail_short hn] at hread
    exact ⟨hH, hread, by omega⟩
  · have hexact : fillLevel s.ctx.total + data.length = 64 := by omega
    have hH := updateActive_H_of_exact hexact
    rw [liveBytes_eq_nil h0, List.nil_append] at hH
    exact ⟨hH, (updateActive_buffer_of_exact hexact).trans (topUpBuffer_of_empty h0 data)⟩
  · exact updateActive_spec_of_empty h0 data
  · have hopen : fillLevel s.ctx.total + data.length < 64 := by omega
    exact ⟨updateActive_H_of_open hopen, bufRead_updateActive_of_open hopen⟩
  · have hexact : fillLevel s.ctx.total + data.length = 64 := by omega
    refine ⟨updateActive_H_of_exact hexact, ?_, by omega⟩
    rw [updateActive_buffer_of_exact hexact, topUp_full s.ctx data h0.ne' hexact.ge, List.take_of_length_le hn.le]
  · exact updateActive_H_of_fills (by omega)
  · rw [(updateActive_frame data s.ctx).1, toNat_addLength]
    have htotal := s.ctx.total.isLt
    omega

/-- Settles O25: one byte by the command's own equation, a payload by the induction over its bytes. -/
theorem updateIsFoldOfFeedByte : Obligations.UpdateIsFoldOfFeedByte := by
  intro s data hp
  have hagree := foldl_feedByte_agree data s.ctx
  have ⟨hH, _, _, hlive⟩ := hagree.symm.2 hp
  refine ⟨fun b => ?_, _, exec_update_active hp data, hagree.symm, hH.symm, hlive.symm⟩
  rw [exec_update_active hp, ← updateActive_singleton]
  rfl

end Sys2Proof.Machine

/-! SUPPORT. `FINALIZE` on an ACTIVE context by fill level (R170 to R177), and the padded message as whole blocks (R179). -/

namespace Sys2Proof.Machine

/-! ## Whole blocks and their concatenation -/

theorem flatten_wholeBlocks (q : Nat) (m : List Byte) : (wholeBlocks q m).flatten = m.take (64 * q) := by
  induction q generalizing m with
  | zero => rfl
  | succ q ih => rw [wholeBlocks, List.flatten_cons, ih, ← List.take_add, Nat.mul_succ, Nat.add_comm]

/-- A sequence that is a whole number of blocks is the concatenation of them (R26). -/
theorem flatten_messageBlocks {m : List Byte} (h : m.length % 64 = 0) : (messageBlocks m).flatten = m := by
  rw [messageBlocks, flatten_wholeBlocks, List.take_of_length_le (by omega)]

/-! ## The padded message -/

/-- The blocks of `pad(m)`: the marker and the length field need nine bytes behind the message (R179). -/
theorem length_pad (m : List Byte) : (pad m).length = 64 * ((m.length + 8) / 64 + 1) := by
  simp only [pad, padZeros_eq, List.length_append, List.length_singleton, length_zeros, length_bytes64]
  split <;> omega

/-! ## `FINALIZE` in phase ACTIVE -/

theorem exec_finalize_active {s : State} (h : s.ctx.phase = .active) :
    exec .finalize s = .next (s.complete (finalizeActive s.ctx)) := by
  rw [exec_eq_complete, perform, performFinalize_active h]

/-- The bit length as the number the statements write (R174, R110 (c)). -/
theorem bitLength_eq_ofNat (total : Dword) : bitLength total = BitVec.ofNat 64 (total.toNat * 8) :=
  BitVec.eq_of_toNat_eq (by rw [toNat_bitLength, BitVec.toNat_ofNat])

/-- The last block, whether or not the length field still fits behind the marker (R173, R174). -/
theorem toList_finalBuffer (c : Context) :
    (finalBuffer c).toList =
      if fillLevel c.total ≤ 55 then
        liveBytes c ++ [0x80] ++ zeros (55 - fillLevel c.total) ++ bytes64 (bitLength c.total)
      else zeros 56 ++ bytes64 (bitLength c.total) := by
  split
  · next hfits => exact finalBuffer_one c hfits
  · next hfull => exact finalBuffer_two c (by omega)

/-- The last compression is of the last block; where the length field does not fit, the padded tail is compressed before it
(R173, R175). -/
theorem finalHash_eq (c : Context) :
    finalHash c =
      if fillLevel c.total ≤ 55 then compress c.H (finalBuffer c).toList
      else compress (compress c.H (liveBytes c ++ [0x80] ++ zeros (63 - fillLevel c.total))) (finalBuffer c).toList := by
  split
  · next hfits => rw [finalHash_one c hfits, finalBuffer_one c hfits]
  · next hfull => rw [finalHash_two c (by omega), finalBuffer_two c (by omega)]

end Sys2Proof.Machine

/-! The obligations of the family `44_finalize.md`. -/

namespace Sys2Proof.Machine

/-- Settles O27: the hash value `FINALIZE` leaves is that of the padded message, and `dlen` is the variant's. The bound on the
length is not used: `pad` takes the bit length modulo 2^64, as the engine does (D11). -/
theorem finalizeEmitsDigestOfMessage : Obligations.FinalizeEmitsDigestOfMessage := by
  intro s v iv m hm hiv _
  have hhash : finalHash s.ctx = messageHash iv m := finalHash_eq_messageHash hm hiv
  refine ⟨_, exec_finalize_active hm.phase, ?_, rfl, hhash⟩
  rw [digestOf, ← hhash, ← hm.dlen]
  rfl

/-- Settles O26: `buf` is the final buffer, and its bytes and the hash value are known by fill level. -/
theorem finalizePadsCompressesEmits : Obligations.FinalizePadsCompressesEmits := by
  intro s hp index tail L last H'
  have hlast : (finalBuffer s.ctx).toList = last := by
    rw [toList_finalBuffer, bitLength_eq_ofNat]
    rfl
  have hhash : finalHash s.ctx = H' := by
    rw [finalHash_eq, hlast]
    rfl
  refine ⟨finalBuffer s.ctx, hlast, ?_⟩
  rw [exec_finalize_active hp, ← hhash]
  rfl

/-- Settles O28: everything follows from the length of the padded message. -/
theorem paddedMessageIsWholeBlocks : Obligations.PaddedMessageIsWholeBlocks := by
  intro m
  have hlen := length_pad m
  refine ⟨by omega, ?_, fun _ => length_of_mem_messageBlocks, flatten_messageBlocks (by omega), by omega⟩
  rw [length_messageBlocks]
  omega

end Sys2Proof.Machine

/-! SUPPORT. `DIGEST` in every phase: its response, the context it leaves, and its meaning (R190 to R192). -/

namespace Sys2Proof.Machine

/-- The context is ACTIVE after `INIT(V256)`, so `UPDATE` answers its status alone (R160, R190). -/
theorem digestMiddle_response (msg : List Byte) (c : Context) :
    (performUpdate msg (performInit .v256 c).1).2 = ⟨.ok, []⟩ := by
  have hactive : (performInit .v256 c).1.phase = .active := (represents_performInit rfl c).phase
  rw [performUpdate_active hactive]
  rfl

/-- The response of `DIGEST`: the context it finalizes holds the message, and all 32 bytes of the hash value are emitted
(R176, R179, R190). -/
theorem performDigest_response (msg : List Byte) (c : Context) :
    (performDigest msg c).2 = ⟨.ok, serialize (messageHash iv256 msg)⟩ := by
  have hm := digestMiddle_represents msg c
  have hfull : (serialize (messageHash iv256 msg)).length ≤ (digestLengthOf .v256).toNat := (length_serialize _).le
  rw [performDigest_eq, finalizeActive, finalHash_eq_messageHash hm rfl, hm.dlen, List.take_of_length_le hfull]

@[simp] theorem performDigest_dlen (msg : List Byte) (c : Context) : (performDigest msg c).1.dlen = .len32 :=
  (performFinalize_dlen _).trans (digestMiddle_represents msg c).dlen

@[simp] theorem performDigest_total (msg : List Byte) (c : Context) :
    (performDigest msg c).1.total = BitVec.ofNat 64 msg.length :=
  (performFinalize_total _).trans (digestMiddle_represents msg c).total

/-- `DIGEST` from every state (R190 to R192). -/
theorem exec_digest (msg : List Byte) (s : State) :
    exec (.digest msg) s = .next { s with
      ctx := (performDigest msg s.ctx).1
      rspOut := s.rspOut ++ 0x00 :: serialize (messageHash iv256 msg) } := by
  rw [exec_eq_complete, perform, State.complete, performDigest_response]
  rfl

end Sys2Proof.Machine

/-! The obligations of the family `45_digest.md`. -/

namespace Sys2Proof.Machine

/-- Settles O31. The bound on the length is not used: `pad` takes the bit length modulo 2^64, as the engine does (D11). -/
theorem digestComputesTheHash : Obligations.DigestComputesTheHash := fun s msg _ => ⟨_, exec_digest msg s, rfl⟩

/-- Settles O30: the digest is a serialized hash value, and the context is the one `FINALIZE` spends. -/
theorem digestCompletesInEveryPhase : Obligations.DigestCompletesInEveryPhase := by
  intro s msg
  have htotal : (performDigest msg s.ctx).1.total.toNat = msg.length % 2 ^ 64 := by
    rw [performDigest_total, BitVec.toNat_ofNat]
  exact ⟨_, _, exec_digest msg s, rfl, length_serialize _, performDigest_phase msg s.ctx, performDigest_dlen msg s.ctx,
    htotal, rfl, rfl, rfl⟩

/-- Settles O29: the three commands in a row leave the context of `DIGEST` by its definition; their responses are two bare
statuses and the response of `DIGEST`. -/
theorem digestIsComposition : Obligations.DigestIsComposition := by
  intro s msg
  refine ⟨_, _, _, serialize (messageHash iv256 msg), exec_eq_complete _ _, exec_eq_complete _ _, exec_eq_complete _ _,
    length_serialize _, ?_, exec_digest msg s⟩
  have hlast : (performFinalize (performUpdate msg (performInit .v256 s.ctx).1).1).2 =
      ⟨.ok, serialize (messageHash iv256 msg)⟩ := performDigest_response msg s.ctx
  simp only [State.complete_rspOut, State.complete_ctx, perform, hlast, digestMiddle_response]
  rfl

end Sys2Proof.Machine

/-! SUPPORT. Errors (R202 to R206): which commands raise one, and what a raised error does to the machine. -/

namespace Sys2Proof.Machine

/-! ## A raised error -/

/-- Completing with a raised error appends its status byte and changes nothing else (R206). -/
theorem State.complete_raiseError (s : State) (e : Status) :
    s.complete (raiseError e s.ctx) = { s with rspOut := s.rspOut ++ [e.code] } := rfl

/-- What a completion appends to `RSP_OUT` is its status byte, then its digest (R82). -/
theorem State.complete_appended {s : State} {r : Context × Response} {b : Byte} {d : List Byte}
    (h : (s.complete r).rspOut = s.rspOut ++ b :: d) : r.2.status.code = b ∧ r.2.digest = d :=
  List.cons.inj (List.append_cancel_left h)

/-- In a phase with an error the guarded command is not reached (R208). -/
theorem whenActive_of_phaseError {c : Context} {e : Status} (h : phaseError c.phase = some e)
    (act : Context → Context × Response) : whenActive c act = raiseError e c := by simp [whenActive, h]

/-- `UPDATE` and `FINALIZE` raise the error of the phase, whatever the payload (R166, R178, R202, R203). -/
theorem perform_of_phaseError {i : Instr} {c : Context} {e : Status} (hi : i = .finalize ∨ ∃ data, i = .update data)
    (h : phaseError c.phase = some e) : perform i c = raiseError e c := by
  rcases hi with rfl | ⟨data, rfl⟩ <;> exact whenActive_of_phaseError h _

theorem exec_of_phaseError {i : Instr} {s : State} {e : Status} (hi : i = .finalize ∨ ∃ data, i = .update data)
    (h : phaseError s.ctx.phase = some e) : exec i s = .next { s with rspOut := s.rspOut ++ [e.code] } := by
  rw [exec_eq_complete, perform_of_phaseError hi h, State.complete_raiseError]

/-! ## Error or success -/

theorem whenActive_raises_or_ok {c : Context} {act : Context → Context × Response} (h : (act c).2.status = .ok) :
    (∃ e, whenActive c act = raiseError e c) ∨ (whenActive c act).2.status = .ok := by
  rcases whenActive_cases c act with ⟨-, he⟩ | ⟨-, he⟩ | ⟨-, he⟩
  · exact .inl ⟨_, he⟩
  · exact .inr (he ▸ h)
  · exact .inl ⟨_, he⟩

/-- A command raises an error and does nothing else, or its status is 0x00 (R206). -/
theorem perform_raises_or_ok (i : Instr) (c : Context) :
    (∃ e, perform i c = raiseError e c) ∨ (perform i c).2.status = .ok := by
  cases i with
  | init v =>
    cases hv : initialHash v with
    | none => exact .inl ⟨_, performInit_absent hv c⟩
    | some iv => exact .inr (congrArg (·.2.status) (performInit_present hv c))
  | update data => exact whenActive_raises_or_ok rfl
  | finalize => exact whenActive_raises_or_ok rfl
  | digest msg => exact .inr (congrArg Response.status (performDigest_response msg c))

/-- A completion with a status other than 0x00 is a raised error: one byte is appended and nothing else changes. -/
theorem State.complete_of_status_ne_ok {s : State} {r : Context × Response} {b : Byte} {d : List Byte}
    (hr : (∃ e, r = raiseError e s.ctx) ∨ r.2.status = .ok) (h : (s.complete r).rspOut = s.rspOut ++ b :: d)
    (hb : b ≠ 0x00) : d = [] ∧ s.complete r = { s with rspOut := s.rspOut ++ [b] } := by
  obtain ⟨rfl, rfl⟩ := State.complete_appended h
  rcases hr with ⟨e, rfl⟩ | hok
  · exact ⟨rfl, State.complete_raiseError s e⟩
  · exact absurd (congrArg Status.code hok) hb

/-! ## The digest of `FINALIZE` -/

/-- `FINALIZE` in phase ACTIVE emits `dlen` bytes: at most the 32 there are (R24, R176). -/
theorem length_finalizeActive_digest (c : Context) : (finalizeActive c).2.digest.length = c.dlen.toNat := by
  have hdlen : c.dlen.toNat ≤ 32 := by cases c.dlen <;> decide
  rw [finalizeActive, List.length_take, length_serialize, Nat.min_eq_left hdlen]

end Sys2Proof.Machine

/-! The obligations of the family `60_exceptions.md`. -/

namespace Sys2Proof.Machine

/-- Settles O33: the rows of `UPDATE` and `FINALIZE` by phase, the other two commands at once; the illegal bytes from the
step that answers them. -/
theorem outcomeTable : Obligations.OutcomeTable := by
  refine ⟨fun s i hwf => ⟨_, (perform i s.ctx).2.status, (perform i s.ctx).2.digest, exec_eq_complete i s, rfl, ?_⟩,
    fun s b rest hr hs hb => ?_⟩
  · cases i with
    | init v =>
      obtain ⟨iv, hiv⟩ := initialHash_of_present hwf
      rw [perform, performInit_present hiv]
      rfl
    | update data =>
      cases hp : s.ctx.phase with
      | uninit => rw [perform_of_phaseError (.inr ⟨data, rfl⟩) (congrArg phaseError hp)]; rfl
      | active => rw [perform, performUpdate_active hp]; rfl
      | spent => rw [perform_of_phaseError (.inr ⟨data, rfl⟩) (congrArg phaseError hp)]; rfl
    | finalize =>
      cases hp : s.ctx.phase with
      | uninit => rw [perform_of_phaseError (.inl rfl) (congrArg phaseError hp)]; rfl
      | active => rw [perform, performFinalize_active hp, length_finalizeActive_digest]; rfl
      | spent => rw [perform_of_phaseError (.inl rfl) (congrArg phaseError hp)]; rfl
    | digest msg => rw [perform, performDigest_response, length_serialize]
  · have hstep := illegalByteIsAnswered s b rest hr hs
    rw [if_pos hb] at hstep
    exact ⟨_, hstep, rfl, rfl⟩

/-- Settles O34, by the cases of a step: a completion with such a status is a raised error, and a wait answers nothing. -/
theorem errorsChangeNothing : Obligations.ErrorsChangeNothing := by
  intro s t e d hr hstep hout he
  rcases step_cases s with ⟨hr', -⟩ | ⟨-, i, rest, hd, -, hs, h⟩ | ⟨-, why, b, rest, hd, hs, h⟩ | ⟨-, -, h⟩
  · simp [hr] at hr'
  · obtain rfl := Host.Outcome.next.inj (h.symm.trans hstep)
    obtain ⟨hnil, ht⟩ :=
      State.complete_of_status_ne_ok (s := { s with cmdIn := rest }) (perform_raises_or_ok i s.ctx) hout he
    exact ⟨hnil, rest, ht, .inl ⟨i, hd, hs⟩⟩
  · obtain rfl := Host.Outcome.next.inj (h.symm.trans hstep)
    obtain ⟨hnil, ht⟩ :=
      State.complete_of_status_ne_ok (s := { s with cmdIn := rest }) (.inl ⟨_, rfl⟩) hout he
    exact ⟨hnil, rest, ht, .inr ⟨why, b, hd, hs⟩⟩
  · obtain rfl := Host.Outcome.next.inj (h.symm.trans hstep)
    simp at hout

/-- Settles O22: both phases have an error, and the command raises it before anything else. -/
theorem outOfOrderUseIsAnswered : Obligations.OutOfOrderUseIsAnswered := fun _ _ hi =>
  ⟨fun hp => exec_of_phaseError hi (congrArg phaseError hp), fun hp => exec_of_phaseError hi (congrArg phaseError hp)⟩

end Sys2Proof.Machine

/-! SUPPORT. Where a run stands (R239): a whole frame makes `CMD_IN` shorter, so enough steps bring the engine to waiting. -/

namespace Sys2Proof.Machine

/-- A frame has at least its opcode byte (R72, R80). -/
theorem length_pos_of_isFrameOf {frame : List Byte} {k : Command} (hf : isFrameOf frame k) : 0 < frame.length := by
  cases frame with
  | nil => cases k <;> simp [isFrameOf, decodeFrame] at hf
  | cons b frame => exact Nat.zero_lt_succ _

/-- A waiting engine has consumed everything or holds the beginning of a frame (R239, D22). -/
theorem State.waiting.runOver_or_stuck {s : State} (h : s.waiting) : s.runOver ∨ s.stuck := by
  by_cases hs : s.cmdIn = []
  · exact .inl ⟨h.1, hs⟩
  · exact .inr ⟨h, hs⟩

/-- The induction over steps: a step with a whole frame consumes at least one byte, and without one the engine waits already. -/
theorem exists_runSteps_waiting {s : State} {n : Nat} (hr : s.resetIn = false) (hn : s.cmdIn.length ≤ n) :
    ∃ t, runSteps n s = .next t ∧ t.waiting := by
  rcases incomplete_or_isFrameOf s.cmdIn with h | ⟨frame, rest, k, hf, hs⟩
  · exact ⟨s, waitingChangesNothing s n ⟨hr, h⟩, hr, h⟩
  · have hpos := length_pos_of_isFrameOf hf
    rw [hs, List.length_append] at hn
    cases n with
    | zero => omega
    | succ n =>
      rw [runSteps_succ n (step_of_isFrameOf hr hf hs)]
      exact exists_runSteps_waiting hr (show rest.length ≤ n by omega)

end Sys2Proof.Machine

/-! The obligations of the family `70_reset_and_hazards.md`. -/

namespace Sys2Proof.Machine

/-- Settles O13: an engine that does not wait has a frame at the head of `CMD_IN`, and its step is the same whatever stands
behind the frame. -/
theorem hostWriteCommutesWithStep : Obligations.HostWriteCommutesWithStep := by
  intro s t bytes hr hw hstep
  rcases incomplete_or_isFrameOf s.cmdIn with h | ⟨frame, rest, k, hf, hs⟩
  · exact absurd ⟨hr, h⟩ hw
  · obtain rfl := Host.Outcome.next.inj ((step_of_isFrameOf hr hf hs).symm.trans hstep)
    have hwritten : (s.hostWrite bytes).cmdIn = frame ++ (rest ++ bytes) := by
      rw [State.hostWrite_cmdIn, hs, List.append_assoc]
    exact step_of_isFrameOf (s := s.hostWrite bytes) hr hf hwritten

/-- Settles O14: there are at most as many frames as bytes. -/
theorem runEndsWaiting : Obligations.RunEndsWaiting := by
  intro s hr
  obtain ⟨t, hrun, hwait⟩ := exists_runSteps_waiting hr le_rfl
  exact ⟨t, hrun, hwait, hwait.runOver_or_stuck⟩

/-- Settles O10: with `RESET` asserted the step is `takeReset`, whatever stands in `CMD_IN`. -/
theorem resetEmptiesStreamsAndUninitializes : Obligations.ResetEmptiesStreamsAndUninitializes := fun s =>
  ⟨takeReset s.hostReset, step_of_reset (State.hostReset_resetIn s), takeReset_phase _, takeReset_cmdIn _,
    takeReset_rspOut _, takeReset_resetIn _, fun _ => rfl⟩

end Sys2Proof.Machine
